-- ==== Sys2Proof/Word.lean ====
section
/-! DEFINITION. The words of the engine: a byte of a frame (00_scope.md R9, R12) and a count of ticks (R11). -/

namespace Sys2Proof

/-- One byte of a frame: an unsigned 8-bit value (R9, R12). -/
abbrev Byte := BitVec 8

/-- A timeout or a timer value: an unsigned 32-bit count of `Tick` events (R11, R29, R87). -/
abbrev Ticks := BitVec 32

end Sys2Proof
end

