-- ==== Sys2Proof/Config.lean ====
section
/-! DEFINITION. The open parameters of 00_scope.md R10. They are fixed for the life of one engine (10_state.md R43)
and are no part of its state (R20). The machine's operations take a `Params`; `Config.params` is this machine's own,
made of constants with no body, so that a claim about `step` holds for every value R10 allows. -/

namespace Sys2Proof

/-- The open parameters with the constraints R10 puts on them. -/
structure Params where
  /-- `SCAN_LIMIT`: the decoder must find a sync marker in this many leading bytes (R10, 41_codec.md R127). -/
  scanLimit : Nat
  /-- `RX_FIFO_DEPTH`: the receive FIFO's capacity in bytes (R10). -/
  rxFifoDepth : Nat
  /-- `SUPPORTED_BAUDS`, as a membership test (R10, 40_transport.md R101). -/
  supportsBaud : Nat → Bool
  /-- `TICK_PERIOD`, in a unit of the environment's choosing; no rule depends on it (R10). -/
  tickPeriod : Nat
  scanLimit_pos : 1 ≤ scanLimit
  rxFifoDepth_ge : scanLimit + 259 ≤ rxFifoDepth
  supportsBaud_pos : supportsBaud 0 = false
  tickPeriod_pos : 0 < tickPeriod

/-- By how much `SCAN_LIMIT` exceeds its least value, 1 (assumption 4). -/
opaque Config.scanLimitExcess : Nat

/-- By how much `RX_FIFO_DEPTH` exceeds its least value, `SCAN_LIMIT + 259` (assumption 4). -/
opaque Config.rxFifoDepthExcess : Nat

/-- Which positive rates the port can configure (assumption 4). -/
opaque Config.baudListed : Nat → Bool

/-- By how much `TICK_PERIOD` exceeds its least value, 1 (assumption 5). -/
opaque Config.tickPeriodExcess : Nat

/-- The parameters of this machine: any values that meet the constraints of R10. -/
def Config.params : Params where
  scanLimit := Config.scanLimitExcess + 1
  rxFifoDepth := Config.scanLimitExcess + 1 + 259 + Config.rxFifoDepthExcess
  supportsBaud b := b != 0 && Config.baudListed b
  tickPeriod := Config.tickPeriodExcess + 1
  scanLimit_pos := Nat.le_add_left 1 _
  rxFifoDepth_ge := Nat.le_add_right _ _
  supportsBaud_pos := rfl
  tickPeriod_pos := Nat.succ_pos _

end Sys2Proof
end

