-- ==== Sys2Proof/Syntax.lean ====
section
/-! DEFINITION. The instruction set: twelve wire instructions (30_encoding.md R74, opcode_table.json) with the operands
of the host command that emits each (R86, R87), and the eleven host commands themselves. -/

namespace Sys2Proof

/-- One (id, data) pair of a SYNCWRITE (R87). -/
structure Entry where
  id : Byte
  data : List Byte
  deriving DecidableEq, Repr

/-- The wire instructions: one constructor per row of opcode_table.json. `t` is the timeout the host passes with the
call: it is an operand of the command and is not on the wire (R43, R87). -/
inductive Instr where
  | ping (id : Byte) (t : Ticks)
  | read (id addr len : Byte) (t : Ticks)
  | write (id addr : Byte) (data : List Byte) (t : Ticks)
  | regWrite (id addr : Byte) (data : List Byte) (t : Ticks)
  | action (id : Byte) (t : Ticks)
  | restoreParams (id : Byte) (params : List Byte) (t : Ticks)
  | reboot (id : Byte)
  | backupParams (id : Byte) (params : List Byte) (t : Ticks)
  | reset (id : Byte) (params : List Byte) (t : Ticks)
  | positionCalibrate (id : Byte) (params : List Byte) (t : Ticks)
  | syncRead (addr len : Byte) (ids : List Byte) (t : Ticks)
  | syncWrite (addr len : Byte) (entries : List Entry)
  deriving DecidableEq, Repr

/-- The names of the twelve instruction codes (R74). -/
inductive Opcode where
  | ping | read | write | regWrite | action | restoreParams | reboot | backupParams | reset | positionCalibrate
  | syncRead | syncWrite
  deriving DecidableEq, Repr

/-- Which row of the table an instruction belongs to. -/
def Instr.opcode : Instr → Opcode
  | .ping _ _ => .ping
  | .read _ _ _ _ => .read
  | .write _ _ _ _ => .write
  | .regWrite _ _ _ _ => .regWrite
  | .action _ _ => .action
  | .restoreParams _ _ _ => .restoreParams
  | .reboot _ => .reboot
  | .backupParams _ _ _ => .backupParams
  | .reset _ _ _ => .reset
  | .positionCalibrate _ _ _ => .positionCalibrate
  | .syncRead _ _ _ _ => .syncRead
  | .syncWrite _ _ _ => .syncWrite

/-- The timeout operand of an instruction; REBOOT and SYNC_WRITE have none (R86). -/
def Instr.timeout? : Instr → Option Ticks
  | .ping _ t | .action _ t => some t
  | .read _ _ _ t | .write _ _ _ t | .regWrite _ _ _ t => some t
  | .restoreParams _ _ t | .backupParams _ _ t | .reset _ _ t | .positionCalibrate _ _ t => some t
  | .syncRead _ _ _ t => some t
  | .reboot _ | .syncWrite _ _ _ => none

/-- The eleven host commands (R86). `openPort` is OPEN; it carries beside its operand the environment's draw
`port_present` for this OPEN (10_state.md R41, assumption 6). `closePort` is CLOSE. -/
inductive Command where
  | openPort (baud : Nat) (portPresent : Bool)
  | closePort
  | ping (id : Byte) (t : Ticks)
  | read (id addr len : Byte) (t : Ticks)
  | write (id addr : Byte) (data : List Byte) (t : Ticks)
  | regWrite (id addr : Byte) (data : List Byte) (t : Ticks)
  | action (id : Byte) (t : Ticks)
  | reboot (id : Byte)
  | txn (inst id : Byte) (params : List Byte) (t : Ticks)
  | syncWrite (addr len : Byte) (entries : List Entry)
  | syncRead (addr len : Byte) (ids : List Byte) (t : Ticks)
  deriving DecidableEq, Repr

/-- BROADCAST_ID (R9). -/
def broadcastId : Byte := 0xFE

end Sys2Proof
end

