-- ==== Sys2Proof/WellFormed.lean ====
section
/-! DEFINITION. Which instructions have an encoding that the engine emits: the ID range, the operand ranges and the
size limit of each row (30_encoding.md R72, R76, R84; opcode_table.json's field notes; 43_group.md R181, R182, R184, R185).
The machine's own validation (Machine/Operands.lean) is written from R142, R181 and R184 on its own. -/

namespace Sys2Proof

/-- A device ID, 0 to 253 (R51). -/
def isUnicast (id : Byte) : Bool := decide (id.toNat ≤ 253)

/-- A frame ID: a device ID or the broadcast address, never 255 (R72). -/
def isFrameId (id : Byte) : Bool := decide (id.toNat ≤ 254)

/-- A WRITE or REG_WRITE carries 1 to 252 data bytes (R58, R84). -/
def isWriteData (data : List Byte) : Bool := decide (1 ≤ data.length) && decide (data.length ≤ 252)

/-- A parameter list fits the one-byte length field (R84). -/
def fitsFrame (params : List Byte) : Bool := decide (params.length ≤ 253)

/-- A READ or a SYNC_READ slot moves 1 to 253 bytes (R58, R84). -/
def isReadLength (len : Byte) : Bool := decide (1 ≤ len.toNat) && decide (len.toNat ≤ 253)

/-- The devices of a group frame are distinct device IDs, at least one (R181, R184). -/
def isDeviceList (ids : List Byte) : Bool := !ids.isEmpty && ids.all isUnicast && decide ids.Nodup

/-- Every entry of a SYNC_WRITE carries `len` data bytes (R181). -/
def sameShape (len : Byte) (entries : List Entry) : Bool := entries.all fun e => decide (e.data.length = len.toNat)

/-- The operands of an instruction are in the ranges its row admits. -/
def Instr.wf : Instr → Bool
  | .ping id _ => isUnicast id
  | .read id _ len _ => isUnicast id && isReadLength len
  | .write id _ data _ => isFrameId id && isWriteData data
  | .regWrite id _ data _ => isFrameId id && isWriteData data
  | .action id _ => isFrameId id
  | .restoreParams id params _ => isFrameId id && fitsFrame params
  | .reboot id => isFrameId id
  | .backupParams id params _ => isFrameId id && fitsFrame params
  | .reset id params _ => isFrameId id && fitsFrame params
  | .positionCalibrate id params _ => isFrameId id && fitsFrame params
  | .syncRead _ len ids _ => isReadLength len && isDeviceList ids && decide (ids.length ≤ 251)
  | .syncWrite _ len entries =>
      decide (1 ≤ len.toNat) && isDeviceList (entries.map Entry.id) && sameShape len entries
        && decide (entries.length * (len.toNat + 1) ≤ 251)

/-- The operands of a host command are of the types R87 gives: a baud rate is a positive integer. -/
def Command.wf : Command → Bool
  | .openPort baud _ => decide (0 < baud)
  | _ => true

end Sys2Proof
end

