-- ==== Sys2Proof/Decode.lean ====
section
/-! DEFINITION. Instruction frames: the opcode table, the checksum and the frame encoder (30_encoding.md R71 to R76, R82;
41_codec.md R121 to R124), the decoder of instruction frames, total on any bytes, and the encoder of instructions.
The engine itself only encodes instructions; the decoder says what a listener on the TX line reads. -/

namespace Sys2Proof

/-! ## The opcode table (R74) -/

/-- The instruction byte of each row (R74). -/
def Opcode.code : Opcode → Byte
  | .ping => 0x01
  | .read => 0x02
  | .write => 0x03
  | .regWrite => 0x04
  | .action => 0x05
  | .restoreParams => 0x06
  | .reboot => 0x08
  | .backupParams => 0x09
  | .reset => 0x0A
  | .positionCalibrate => 0x0B
  | .syncRead => 0x82
  | .syncWrite => 0x83

/-- The rows of the table. -/
def Opcode.all : List Opcode :=
  [.ping, .read, .write, .regWrite, .action, .restoreParams, .reboot, .backupParams, .reset, .positionCalibrate,
   .syncRead, .syncWrite]

/-- The row an instruction byte selects, by exact match on all 8 bits (R74); none for an unassigned value (R75). -/
def opcodeOf? (b : Byte) : Option Opcode := Opcode.all.find? fun o => o.code == b

/-! ## Frames -/

/-- The natural-number sum of the bytes of a sequence (R13). -/
def sumBytes (s : List Byte) : Nat := (s.map BitVec.toNat).sum

/-- The checksum byte: the complement of the low 8 bits of the sum (R82, R121). -/
def checksum (id len b4 : Byte) (params : List Byte) : Byte :=
  ~~~(BitVec.ofNat 8 (id.toNat + len.toNat + b4.toNat + sumBytes params))

/-- What a frame carries: its ID, its byte 4 and its parameter bytes. -/
structure Wire where
  id : Byte
  inst : Byte
  params : List Byte
  deriving DecidableEq, Repr

/-- The LEN byte: parameter count + 2 (R73). -/
def Wire.len (w : Wire) : Byte := BitVec.ofNat 8 (w.params.length + 2)

/-- The frame's bytes in line order (R71). -/
def Wire.frame (w : Wire) : List Byte :=
  [0xFF, 0xFF, w.id, w.len, w.inst] ++ w.params ++ [checksum w.id w.len w.inst w.params]

/-- `encode(id, inst, params)`: the frame, or none for the failure ParamsTooLarge (R123, R124). -/
def encodeFrame (w : Wire) : Option (List Byte) :=
  if w.params.length > 253 then none else some w.frame

/-! ## Instructions to bytes -/

/-- The parameter bytes of a SYNC_WRITE after addr and L: one block per entry, in the order of `entries` (R76, R182). -/
def entryBlocks (entries : List Entry) : List Byte := entries.flatMap fun e => e.id :: e.data

/-- The parameter layout of each row (R76). -/
def Instr.params : Instr → List Byte
  | .ping _ _ | .action _ _ | .reboot _ => []
  | .read _ addr len _ => [addr, len]
  | .write _ addr data _ | .regWrite _ addr data _ => addr :: data
  | .restoreParams _ params _ | .backupParams _ params _ | .reset _ params _ | .positionCalibrate _ params _ => params
  | .syncRead addr len ids _ => addr :: len :: ids
  | .syncWrite addr len entries => addr :: len :: entryBlocks entries

/-- The ID byte of each row: its operand, or always 0xFE for the two group rows (opcode_table.json). -/
def Instr.frameId : Instr → Byte
  | .ping id _ | .action id _ | .reboot id => id
  | .read id _ _ _ | .write id _ _ _ | .regWrite id _ _ _ => id
  | .restoreParams id _ _ | .backupParams id _ _ | .reset id _ _ | .positionCalibrate id _ _ => id
  | .syncRead _ _ _ _ | .syncWrite _ _ _ => broadcastId

/-- What an instruction puts into its frame. -/
def Instr.wire (i : Instr) : Wire := ⟨i.frameId, i.opcode.code, i.params⟩

/-- The words of a well-formed instruction: its frame. -/
def encode (i : Instr) : List Byte := i.wire.frame

/-! ## Bytes to instructions -/

/-- Why a byte sequence is no instruction frame. -/
inductive DecodeError where
  /-- Fewer bytes than the header or than LEN asks for (R83). -/
  | truncated
  /-- The first two bytes are not the sync marker (R71). -/
  | noSync
  /-- The ID byte is 0xFF, which is no frame's ID (R72). -/
  | reservedId
  /-- LEN is below 2 (R73). -/
  | malformedLength
  /-- The last byte is not the checksum (R82). -/
  | checksumMismatch
  /-- The instruction byte is none of the twelve codes (R75). -/
  | unassignedCode
  /-- The parameter bytes do not have the row's layout (R76). -/
  | wrongShape
  /-- A group row whose ID is not 0xFE (opcode_table.json). -/
  | notBroadcast
  deriving DecidableEq, Repr

/-- Cuts a SYNC_WRITE's block bytes into entries of `len` data bytes each (R76); none where they do not divide evenly.
`fuel` bounds the number of blocks; the number of bytes is always enough. -/
def splitBlocks (len : Nat) : (fuel : Nat) → List Byte → Option (List Entry)
  | _, [] => some []
  | 0, _ :: _ => none
  | fuel + 1, id :: rest =>
      if rest.length < len then none
      else (splitBlocks len fuel (rest.drop len)).map (⟨id, rest.take len⟩ :: ·)

/-- The instruction of a row with the given ID and parameter bytes, where they have the row's layout (R76). The
timeout is the host's: it is not on the wire (assumption 7). Operand ranges are not checked here (assumption 8). -/
def instrOf (t : Ticks) (id : Byte) (params : List Byte) : Opcode → Except DecodeError Instr
  | .ping => if params = [] then .ok (.ping id t) else .error .wrongShape
  | .action => if params = [] then .ok (.action id t) else .error .wrongShape
  | .reboot => if params = [] then .ok (.reboot id) else .error .wrongShape
  | .read =>
      match params with
      | [addr, len] => .ok (.read id addr len t)
      | _ => .error .wrongShape
  | .write =>
      match params with
      | addr :: data => .ok (.write id addr data t)
      | [] => .error .wrongShape
  | .regWrite =>
      match params with
      | addr :: data => .ok (.regWrite id addr data t)
      | [] => .error .wrongShape
  | .restoreParams => .ok (.restoreParams id params t)
  | .backupParams => .ok (.backupParams id params t)
  | .reset => .ok (.reset id params t)
  | .positionCalibrate => .ok (.positionCalibrate id params t)
  | .syncRead =>
      match params with
      | addr :: len :: ids => if id = broadcastId then .ok (.syncRead addr len ids t) else .error .notBroadcast
      | _ => .error .wrongShape
  | .syncWrite =>
      match params with
      | addr :: len :: blocks =>
          if id = broadcastId then
            match splitBlocks len.toNat blocks.length blocks with
            | some entries => .ok (.syncWrite addr len entries)
            | none => .error .wrongShape
          else .error .notBroadcast
      | _ => .error .wrongShape

/-- The instruction of a frame's ID, instruction byte and parameter bytes. -/
def instrOfWire (t : Ticks) (w : Wire) : Except DecodeError Instr :=
  match opcodeOf? w.inst with
  | none => .error .unassignedCode
  | some o => instrOf t w.id w.params o

/-- The body of a frame, its `len` bytes after LEN: the instruction byte, the parameters and the checksum (R71, R73). -/
def decodeBody (t : Ticks) (id len : Byte) : List Byte → Except DecodeError Instr
  | [] => .error .truncated
  | inst :: tail =>
      let params := tail.take (len.toNat - 2)
      if tail.drop (len.toNat - 2) = [checksum id len inst params] then instrOfWire t ⟨id, inst, params⟩
      else .error .checksumMismatch

/-- Reads one instruction frame from the front of a byte sequence and answers the instruction and the bytes after it.
`t` is the timeout that goes with the frame (assumption 7). -/
def decodeInstr (t : Ticks) : List Byte → Except DecodeError (Instr × List Byte)
  | s0 :: s1 :: id :: len :: rest =>
      if s0 ≠ 0xFF ∨ s1 ≠ 0xFF then .error .noSync
      else if id = 0xFF then .error .reservedId
      else if len.toNat < 2 then .error .malformedLength
      else if rest.length < len.toNat then .error .truncated
      else (decodeBody t id len (rest.take len.toNat)).map fun i => (i, rest.drop len.toNat)
  | _ => .error .truncated

/-! ## The opcode table's numbering (assumption 8) -/

/-- How many parameter bytes the shortest frame of a row has, counting one operand of each kind the row lists: READ
addr and len; WRITE and REG_WRITE addr and one data byte; SYNC_READ addr, L and one id; SYNC_WRITE addr, L and one id
(its L is then 0). -/
def Opcode.leastParams : Opcode → Nat
  | .read | .write | .regWrite => 2
  | .syncRead | .syncWrite => 3
  | _ => 0

/-- Byte `k` of a table word: bits `8k+7` to `8k`. -/
def tableByte (w k : Nat) : Byte := BitVec.ofNat 8 (w / 2 ^ (8 * k))

/-- The ID, instruction byte and parameters of a table word, if its code is assigned. The table's bits start at the
instruction byte, offset 4 of the frame (R74), and go on with the parameter bytes; every operand byte the word does not
hold is 0, and the group rows' ID 0xFE is fixed by the format, so it is filled in. -/
def tableWire (nbits w : Nat) : Option Wire :=
  (opcodeOf? (tableByte w 0)).map fun o =>
    let given := (List.range (nbits / 8 - 1)).map fun k => tableByte w (k + 1)
    let params := given ++ List.replicate (o.leastParams - given.length) 0
    ⟨if o = .syncRead ∨ o = .syncWrite then broadcastId else 0, o.code, params⟩

/-- The frame of a table word, with its sync bytes, LEN and checksum. A word of more than 253 parameter bytes has none
(R84, R124). -/
def tableFrame (nbits w : Nat) : Option (List Byte) := (tableWire nbits w).bind encodeFrame

/-- The instruction the decoder reads from a table word. -/
def decodeTableWord (nbits w : Nat) : Option Instr :=
  match tableFrame nbits w with
  | none => none
  | some bytes =>
      match decodeInstr 0 bytes with
      | .ok (i, _) => some i
      | .error _ => none

end Sys2Proof
end

