-- ==== Sys2Proof/Machine/State.lean ====
section
/-! DEFINITION. The state of the engine: 10_state.md R20 to R35, with the result records of 30_encoding.md R88 to R90, and
the environment's pending events (10_state.md R40). Reset values: R42. -/

namespace Sys2Proof.Machine

/-- The connection state (R21). -/
inductive Conn where
  | closed | opened
  deriving DecidableEq, Repr

/-- The sequencer state, which takes the place of a program counter (R23). -/
inductive Seq where
  | idle | sending | await
  deriving DecidableEq, Repr

/-- The result codes (R89). -/
inductive ResultCode where
  | ok | flags | notResponding | timeout | syncNotFound | checksumMismatch | malformed | idMismatch | lengthMismatch
  | paramsTooLarge | badArgument | ioError | portUnavailable | unsupportedBaud | notOpen
  deriving DecidableEq, Repr

/-- One slot's outcome (R90). -/
structure SlotResult where
  id : Byte
  code : ResultCode
  status : Option Byte
  data : List Byte
  deriving DecidableEq, Repr

/-- The one record a command ends in (R88). -/
structure Result where
  code : ResultCode
  status : Option Byte
  data : List Byte
  slots : List SlotResult
  deriving DecidableEq, Repr

/-- The events of R40. The environment chooses which enabled one happens next. -/
inductive Event where
  | issue (c : Command)
  | txAccept
  | linkFail
  | rxByte (b : Byte)
  | tick
  | reset
  deriving DecidableEq, Repr

/-- The engine's state, one field per element of R21 to R35, and the model's own `inbox`. -/
structure State where
  /-- Connection state (R21). -/
  conn : Conn
  /-- Baud rate of the last successful OPEN, none while closed (R22). -/
  baud : Option Nat
  /-- Sequencer state (R23). -/
  seq : Seq
  /-- The latched command (R24). -/
  cur : Option Command
  /-- The request frame being sent (R25). -/
  txbuf : List Byte
  /-- Index of the next byte to offer (R26). -/
  txpos : Nat
  /-- The receive FIFO, oldest byte first (R27). -/
  rxfifo : List Byte
  /-- Sticky: a received byte was dropped (R28). -/
  rxOverrun : Bool
  /-- Ticks seen in the current receive window (R29). -/
  timer : Ticks
  /-- A byte was present or arrived in the current window (R30). -/
  heard : Bool
  /-- The SYNC_READ slot awaited (R31). -/
  slot : Nat
  /-- The resolved SYNC_READ slots, in slot order (R32). -/
  slots : List SlotResult
  /-- The last posted result (R34). -/
  result : Option Result
  /-- Every result posted since reset (R34). -/
  results : List Result
  /-- Every byte the transmitter accepted since reset (R35). -/
  txlog : List Byte
  /-- The model's own: events the environment has chosen and the engine has not taken yet (assumption 1). -/
  inbox : List Event
  deriving DecidableEq, Repr

/-- Why a step stops with a fault: never. The engine has no traps or exceptions; every error is a posted result
(60_exceptions.md R200, R205; assumption 13). Nothing raises a fault, so the type has no constructor. -/
inductive Fault
  deriving DecidableEq, Repr

/-- Why the model gives an instruction no meaning. -/
inductive Refusal where
  /-- Raised only by a refused arm of `exec`: the instruction's meaning is not written. Safe: the machine stops where
  the hardware goes on. No arm raises it. -/
  | notModelled (mnemonic : String)
  deriving DecidableEq, Repr

/-- The machine right after reset (R42); power-on gives the same values. `inbox` is empty (assumption 10). -/
def State.reset : State where
  conn := .closed
  baud := none
  seq := .idle
  cur := none
  txbuf := []
  txpos := 0
  rxfifo := []
  rxOverrun := false
  timer := 0
  heard := false
  slot := 0
  slots := []
  result := none
  results := []
  txlog := []
  inbox := []

end Sys2Proof.Machine
end

