-- ==== Sys2Proof/Machine/Flags.lean ====
section
/-! DEFINITION. The device status byte and the result codes: 30_encoding.md R80, R81, R89. The engine's own flags
`rxOverrun` and `heard` are written in Machine/Ops.lean and Machine/Transport.lean, where the rules write them. -/

namespace Sys2Proof.Machine

/-- The named flags of a status byte (R80). Bits 4, 6 and 7 are reserved and have no name. -/
inductive StatusFlag where
  | voltage | encoder | temperature | current | overload
  deriving DecidableEq, Repr

/-- The bit of each flag (R80). -/
def StatusFlag.bit : StatusFlag → Nat
  | .voltage => 0
  | .encoder => 1
  | .temperature => 2
  | .current => 3
  | .overload => 5

/-- Whether a status byte reports a flag. Only the host asks this; the engine carries the raw byte (R81). -/
def hasFlag (status : Byte) (f : StatusFlag) : Bool := status.getLsbD f.bit

/-- All flags a status byte reports; several may be set at once (R81). -/
def statusFlags (status : Byte) : List StatusFlag :=
  [StatusFlag.voltage, .encoder, .temperature, .current, .overload].filter (hasFlag status)

/-- The engine's only test of a status byte: OK or FLAGS (R81, R210, R211). -/
def statusCode (status : Byte) : ResultCode := if status = 0 then .ok else .flags

/-- The number of each result code (R89). -/
def ResultCode.value : ResultCode → Nat
  | .ok => 0
  | .flags => 1
  | .notResponding => 2
  | .timeout => 3
  | .syncNotFound => 4
  | .checksumMismatch => 5
  | .malformed => 6
  | .idMismatch => 7
  | .lengthMismatch => 8
  | .paramsTooLarge => 9
  | .badArgument => 10
  | .ioError => 11
  | .portUnavailable => 12
  | .unsupportedBaud => 13
  | .notOpen => 14

end Sys2Proof.Machine
end

