-- ==== Sys2Proof/Machine/Operands.lean ====
section
/-! DEFINITION. What the engine reads off a command: which instruction it emits, its validation (42_transactions.md R142;
43_group.md R181, R184), its frame (the `frameOf` lines of R151 to R157, R182, R185), and the response it expects
(30_encoding.md R77; 10_state.md R33; 42_transactions.md R144). -/

namespace Sys2Proof.Machine

/-! ## Commands and instructions (R74, R86) -/

/-- The command that emits an instruction (the last column of R74's table). -/
def commandOf : Instr → Command
  | .ping id t => .ping id t
  | .read id addr len t => .read id addr len t
  | .write id addr data t => .write id addr data t
  | .regWrite id addr data t => .regWrite id addr data t
  | .action id t => .action id t
  | .restoreParams id params t => .txn 0x06 id params t
  | .reboot id => .reboot id
  | .backupParams id params t => .txn 0x09 id params t
  | .reset id params t => .txn 0x0A id params t
  | .positionCalibrate id params t => .txn 0x0B id params t
  | .syncRead addr len ids t => .syncRead addr len ids t
  | .syncWrite addr len entries => .syncWrite addr len entries

/-- The instruction a TXN carries: one of its four codes (R157), none for another value of `inst`. -/
def txnInstr? (inst id : Byte) (params : List Byte) (t : Ticks) : Option Instr :=
  if inst = 0x06 then some (.restoreParams id params t)
  else if inst = 0x09 then some (.backupParams id params t)
  else if inst = 0x0A then some (.reset id params t)
  else if inst = 0x0B then some (.positionCalibrate id params t)
  else none

/-- The instruction a command emits: none for OPEN and CLOSE, and for a TXN of another code. -/
def instrOf? : Command → Option Instr
  | .openPort _ _ => none
  | .closePort => none
  | .ping id t => some (.ping id t)
  | .read id addr len t => some (.read id addr len t)
  | .write id addr data t => some (.write id addr data t)
  | .regWrite id addr data t => some (.regWrite id addr data t)
  | .action id t => some (.action id t)
  | .reboot id => some (.reboot id)
  | .txn inst id params t => txnInstr? inst id params t
  | .syncWrite addr len entries => some (.syncWrite addr len entries)
  | .syncRead addr len ids t => some (.syncRead addr len ids t)

/-! ## Validation -/

/-- Two members of a list are equal (R181, R184: "two `id_k` are equal"). -/
def hasDuplicate : List Byte → Bool
  | [] => false
  | id :: ids => ids.contains id || hasDuplicate ids

/-- The BAD_ARGUMENT column of R142, with R181 and R184 for the group commands. -/
def badArgument : Command → Bool
  | .openPort _ _ | .closePort => false
  | .ping id _ => decide (id.toNat > 253)
  | .read id _ len _ => decide (id.toNat > 253) || decide (len.toNat = 0) || decide (len.toNat > 253)
  | .write id _ data _ | .regWrite id _ data _ => decide (id.toNat > 254) || decide (data.length = 0)
  | .action id _ | .reboot id => decide (id.toNat > 254)
  | .txn inst id _ _ => !([0x06, 0x09, 0x0A, 0x0B] : List Byte).contains inst || decide (id.toNat > 254)
  | .syncWrite _ len entries =>
      decide (entries.length = 0) || decide (len.toNat = 0) || entries.any (fun e => decide (e.id.toNat > 253))
        || hasDuplicate (entries.map Entry.id) || entries.any (fun e => decide (e.data.length ≠ len.toNat))
  | .syncRead _ len ids _ =>
      decide (ids.length = 0) || decide (len.toNat = 0) || decide (len.toNat > 253)
        || ids.any (fun id => decide (id.toNat > 253)) || hasDuplicate ids

/-- The PARAMS_TOO_LARGE column of R142, with R181 and R184 for the group commands. -/
def paramsTooLarge : Command → Bool
  | .write _ _ data _ | .regWrite _ _ data _ => decide (1 + data.length > 253)
  | .txn _ _ params _ => decide (params.length > 253)
  | .syncWrite _ len entries => decide (2 + entries.length * (len.toNat + 1) > 253)
  | .syncRead _ _ ids _ => decide (2 + ids.length > 253)
  | .openPort _ _ | .closePort | .ping _ _ | .read _ _ _ _ | .action _ _ | .reboot _ => false

/-! ## The request frame -/

/-- `frameOf`: the ID, instruction byte and parameters of a command's frame; none for OPEN and CLOSE, which have no
frame (R101, R103). -/
def frameOf : Command → Option Wire
  | .openPort _ _ | .closePort => none
  | .ping id _ => some ⟨id, 0x01, []⟩
  | .read id addr len _ => some ⟨id, 0x02, [addr, len]⟩
  | .write id addr data _ => some ⟨id, 0x03, [addr] ++ data⟩
  | .regWrite id addr data _ => some ⟨id, 0x04, [addr] ++ data⟩
  | .action id _ => some ⟨id, 0x05, []⟩
  | .reboot id => some ⟨id, 0x08, []⟩
  | .txn inst id params _ => some ⟨id, inst, params⟩
  | .syncWrite addr len entries => some ⟨0xFE, 0x83, [addr, len] ++ (entries.map fun e => [e.id] ++ e.data).flatten⟩
  | .syncRead addr len ids _ => some ⟨0xFE, 0x82, [addr, len] ++ ids⟩

/-! ## The expected response -/

/-- The response column of the instruction-descriptor table (R77). -/
inductive Expectation where
  /-- No response frame is awaited. -/
  | noResponse
  /-- A response frame with exactly this many parameters. -/
  | params (n : Nat)
  /-- A response frame with any parameter count. -/
  | any
  deriving DecidableEq, Repr

/-- No response is awaited from the broadcast address (R77, R144). -/
def unlessBroadcast (id : Byte) (e : Expectation) : Expectation := if id = 0xFE then .noResponse else e

/-- The instruction-descriptor table (R77), by command. -/
def expectation : Command → Expectation
  | .openPort _ _ | .closePort => .noResponse
  | .ping id _ => unlessBroadcast id (.params 0)
  | .read id _ len _ => unlessBroadcast id (.params len.toNat)
  | .write id _ _ _ | .regWrite id _ _ _ => unlessBroadcast id (.params 0)
  | .action id _ => unlessBroadcast id (.params 0)
  | .reboot _ => .noResponse
  | .txn _ id _ _ => unlessBroadcast id .any
  | .syncWrite _ _ _ => .noResponse
  | .syncRead _ len _ _ => .params len.toNat

/-- `awaits(c)` (R144). -/
def awaits (c : Command) : Bool := expectation c != .noResponse

/-- `expCount` admits a parameter count (R33, R146). -/
def Expectation.admits : Expectation → Nat → Bool
  | .noResponse, _ => false
  | .params m, n => n == m
  | .any, _ => true

/-- `expId`: the ID the awaited response must carry (R33); none where the command awaits nothing. -/
def expId : Command → Nat → Option Byte
  | .ping id _, _ | .action id _, _ => some id
  | .read id _ _ _, _ | .write id _ _ _, _ | .regWrite id _ _ _, _ => some id
  | .txn _ id _ _, _ => some id
  | .syncRead _ _ ids _, slot => ids[slot]?
  | .openPort _ _, _ | .closePort, _ | .reboot _, _ | .syncWrite _ _ _, _ => none

/-- The timeout operand of a command; OPEN, CLOSE, REBOOT and SYNCWRITE have none (R86). -/
def timeoutOf : Command → Option Ticks
  | .ping _ t | .action _ t => some t
  | .read _ _ _ t | .write _ _ _ t | .regWrite _ _ _ t => some t
  | .txn _ _ _ t => some t
  | .syncRead _ _ _ t => some t
  | .openPort _ _ | .closePort | .reboot _ | .syncWrite _ _ _ => none

/-- Only READ and TXN hand the response's parameters to the host (R88, R146). -/
def returnsData : Command → Bool
  | .read _ _ _ _ | .txn _ _ _ _ => true
  | _ => false

/-- How the host reads a little-endian pair of response bytes (R136). The engine never does. -/
def le16 (lo hi : Byte) : Nat := lo.toNat + 256 * hi.toNat

end Sys2Proof.Machine
end

