-- ==== Sys2Proof/Machine/Codec.lean ====
section
/-! DEFINITION. The decoder of response frames: 41_codec.md R125 to R131. -/

namespace Sys2Proof.Machine

/-- What a decode that is not Incomplete found (R126). -/
inductive FrameResult where
  | ok (id status : Byte) (params : List Byte)
  | checksumMismatch
  | malformed
  | syncNotFound
  deriving DecidableEq, Repr

/-- The answer of `decode`: read more, or a finding and the count of bytes to consume (R126). -/
inductive Decoded where
  | incomplete
  | found (r : FrameResult) (n : Nat)
  deriving DecidableEq, Repr

/-- The least index of a confirmed sync: 0xFF 0xFF and a third byte that is not 0xFF (R125). -/
def findSync : List Byte → Option Nat
  | a :: b :: c :: rest =>
      if a = 0xFF ∧ b = 0xFF ∧ c ≠ 0xFF then some 0 else (findSync (b :: c :: rest)).map (· + 1)
  | _ => none

/-- The frame whose sync marker starts at index `i` (R126, from `i := min(I)` on). -/
def decodeAt (i : Nat) (s : List Byte) : Decoded :=
  match s.drop (i + 2) with
  | id :: len :: rest =>
      if len.toNat < 2 then .found .malformed (i + 4)
      else if rest.length < len.toNat then .incomplete
      else
        match rest.take len.toNat with
        | b4 :: tail =>
            let params := tail.take (len.toNat - 2)
            if tail.drop (len.toNat - 2) = [checksum id len b4 params] then
              .found (.ok id b4 params) (i + 4 + len.toNat)
            else .found .checksumMismatch (i + 4 + len.toNat)
        | [] => .incomplete
  | _ => .incomplete

/-- No marker in the first `scanLimit` bytes: SyncNotFound once `scanLimit + 2` bytes are buffered (R127), else
Incomplete (R128). -/
def decodeNoSync (scanLimit : Nat) (s : List Byte) : Decoded :=
  if s.length ≥ scanLimit + 2 then .found .syncNotFound scanLimit else .incomplete

/-- `decode(s)` (R126). -/
def decodeResponse (scanLimit : Nat) (s : List Byte) : Decoded :=
  match findSync s with
  | some i => if i < scanLimit then decodeAt i s else decodeNoSync scanLimit s
  | none => decodeNoSync scanLimit s

end Sys2Proof.Machine
end

