-- ==== Sys2Proof/Machine/Ops.lean ====
section
/-! DEFINITION. The operations the instructions share: posting a result (60_exceptions.md R205, the one way a command
ends), issuing (42_transactions.md R141 to R143), Sent (R144), Settle with Resolve and ResolveSlot (R145, R146;
43_group.md R187), Expire (R148, R188), and the outputs (10_state.md R36). -/

namespace Sys2Proof.Machine

/-! ## Outputs (R36) -/

/-- `ready`: the host may issue a command. -/
def State.ready (s : State) : Bool := s.seq == .idle

/-- `tx_en`: the engine owns the line. -/
def State.txEn (s : State) : Bool := s.seq == .sending

/-- `tx_data`: the byte offered to the UART; defined while SENDING. -/
def State.txData (s : State) : Option Byte := if s.seq = .sending then s.txbuf[s.txpos]? else none

/-! ## Ending a command -/

/-- A result that is only a code (R88). -/
def Result.only (code : ResultCode) : Result := ⟨code, none, [], []⟩

/-- A slot result that is only an error code (R90). -/
def SlotResult.only (id : Byte) (code : ResultCode) : SlotResult := ⟨id, code, none, []⟩

/-- `Post(r)`: publishes a result and returns to IDLE (R205). This is the engine's counterpart of taking an exception
and of returning from one: every error and every completion goes through it, and nothing else is saved (R204, R206). -/
def State.post (s : State) (r : Result) : State :=
  { s with
    result := some r
    results := s.results ++ [r]
    seq := .idle
    cur := none
    txbuf := []
    txpos := 0
    timer := 0
    heard := false
    slot := 0
    slots := [] }

/-! ## Issuing a command -/

/-- A command that passed validation starts to send its frame (R143). A command with no frame, or whose frame does not
fit, does not come here (R142; assumption 11). -/
def State.start (s : State) (c : Command) : State :=
  match (frameOf c).bind encodeFrame with
  | none => s
  | some bytes => { s with txbuf := bytes, txpos := 0, seq := .sending }

/-- Validation and start, in R142's order: NOT_OPEN, BAD_ARGUMENT, PARAMS_TOO_LARGE (R202). -/
def State.validateAndStart (s : State) (c : Command) : State :=
  if s.conn = .closed then s.post (.only .notOpen)
  else if badArgument c then s.post (.only .badArgument)
  else if paramsTooLarge c then s.post (.only .paramsTooLarge)
  else s.start c

/-- The Issue step of a command that has a frame (R141). Outside IDLE there is no Issue step: the host keeps the
command and waits (assumption 3). -/
def State.issue (s : State) (c : Command) : State :=
  if s.seq = .idle then { s with cur := some c }.validateAndStart c
  else { s with inbox := .issue c :: s.inbox }

/-! ## The receive window -/

/-- The result of a single-device transaction on a decoded frame (R146). -/
def singleResult (c : Command) (slot : Nat) : FrameResult → Result
  | .syncNotFound => .only .syncNotFound
  | .malformed => .only .malformed
  | .checksumMismatch => .only .checksumMismatch
  | .ok id status params =>
      if expId c slot ≠ some id then .only .idMismatch
      else if !(expectation c).admits params.length then .only .lengthMismatch
      else ⟨statusCode status, some status, if returnsData c then params else [], []⟩

/-- The outcome of the slot that awaits `len` bytes from `id` (R187). -/
def slotResult (id : Byte) (len : Nat) : FrameResult → SlotResult
  | .syncNotFound => .only id .syncNotFound
  | .malformed => .only id .malformed
  | .checksumMismatch => .only id .checksumMismatch
  | .ok rid status params =>
      if rid ≠ id then .only id .idMismatch
      else if params.length ≠ len then .only id .lengthMismatch
      else ⟨id, statusCode status, some status, params⟩

/-- `NextSlot(sr)` of a SYNCREAD over `n` devices (R187). -/
def State.nextSlot (s : State) (n : Nat) (sr : SlotResult) : State :=
  if s.slot + 1 = n then
    s.post ⟨.ok, none, [], s.slots ++ [sr]⟩
  else
    { s with slots := s.slots ++ [sr], slot := s.slot + 1, timer := 0, heard := !s.rxfifo.isEmpty }

/-- `Resolve(r)` for a single-device command (R146), `ResolveSlot(r)` for a SYNCREAD (R187). With no command, or no
such slot, nothing is resolved (assumption 11). -/
def State.resolve (s : State) (r : FrameResult) : State :=
  match s.cur with
  | none => s
  | some (.syncRead _ len ids _) =>
      match ids[s.slot]? with
      | none => s
      | some id => s.nextSlot ids.length (slotResult id len.toNat r)
  | some c => s.post (singleResult c s.slot r)

/-- The loop of Settle (R145). Each pass takes at least one byte off the FIFO, so `fuel` passes are enough when the
FIFO holds at most `fuel` bytes (R133; assumption 14). -/
def settleLoop (scanLimit : Nat) : (fuel : Nat) → State → State
  | 0, s => s
  | fuel + 1, s =>
      if s.seq = .await then
        match decodeResponse scanLimit s.rxfifo with
        | .incomplete => s
        | .found r n => settleLoop scanLimit fuel ({ s with rxfifo := s.rxfifo.drop n }.resolve r)
      else s

/-- `Settle` (R145): decodes the FIFO until more bytes are needed or the command ends. -/
def State.settle (scanLimit : Nat) (s : State) : State := settleLoop scanLimit s.rxfifo.length s

/-- `Sent` (R144), but for the Settle that ends the step. -/
def State.sent (s : State) : State :=
  match s.cur with
  | none => s
  | some c =>
      if awaits c then
        { s with txbuf := [], txpos := 0, seq := .await, slot := 0, timer := 0, heard := !s.rxfifo.isEmpty }
      else s.post (.only .ok)

/-- What an expired window reports when its command is no PING (R148, R188). -/
def expiryCode (heard : Bool) : ResultCode := if heard then .timeout else .notResponding

/-- `Expire` (R148 for a single-device command, R188 for a SYNCREAD slot). -/
def State.expire (s : State) : State :=
  match s.cur with
  | none => s
  | some (.ping _ _) => s.post (.only .notResponding)
  | some (.syncRead _ _ ids _) =>
      match ids[s.slot]? with
      | none => s
      | some id => s.nextSlot ids.length (.only id (expiryCode s.heard))
  | some _ => s.post (.only (expiryCode s.heard))

end Sys2Proof.Machine
end

