-- ==== Sys2Proof/Machine/Transport.lean ====
section
/-! DEFINITION. The Transport: OPEN and CLOSE, and what each line event does (40_transport.md R101 to R110;
70_reset_and_hazards.md R230). -/

namespace Sys2Proof.Machine

/-- The connection is gone: closed, no rate, FIFO emptied (R101, R103, R110). -/
def State.disconnect (s : State) : State := { s with conn := .closed, baud := none, rxfifo := [] }

/-- `OPEN(baud)` with the draw `port_present` (R101), in IDLE. -/
def State.openPort (p : Params) (s : State) (baud : Nat) (portPresent : Bool) : State :=
  let s0 := { s with cur := some (.openPort baud portPresent) }
  let s1 := if s0.conn = .opened then s0.disconnect else s0
  if !portPresent then s1.post (.only .portUnavailable)
  else if !p.supportsBaud baud then s1.post (.only .unsupportedBaud)
  else { s1 with conn := .opened, baud := some baud, rxfifo := [], rxOverrun := false }.post (.only .ok)

/-- `CLOSE` (R103), in IDLE. -/
def State.closePort (s : State) : State :=
  { s with cur := some .closePort }.disconnect.post (.only .ok)

/-- The Issue step of any command (R141). -/
def State.issueCommand (p : Params) (s : State) (c : Command) : State :=
  match c with
  | .openPort baud portPresent =>
      if s.seq = .idle then s.openPort p baud portPresent else { s with inbox := .issue c :: s.inbox }
  | .closePort => if s.seq = .idle then s.closePort else { s with inbox := .issue c :: s.inbox }
  | _ => s.issue c

/-- `TxAccept`: the UART takes the offered byte (R104), but for the Settle that ends the step. With no byte offered
nothing is taken (assumption 11). -/
def State.txAccept (s : State) : State :=
  match s.txbuf[s.txpos]? with
  | none => s
  | some b =>
      let s1 := { s with txlog := s.txlog ++ [b], txpos := s.txpos + 1 }
      if s1.txpos = s1.txbuf.length then s1.sent else s1

/-- `RxByte(b)` (R106), but for the Settle that ends the step. -/
def State.rxByte (p : Params) (s : State) (b : Byte) : State :=
  if s.conn = .closed then s
  else
    let s1 := if s.seq = .await then { s with heard := true } else s
    if s1.rxfifo.length < p.rxFifoDepth then { s1 with rxfifo := s1.rxfifo ++ [b] }
    else { s1 with rxOverrun := true }

/-- `Tick` (R109), but for the Settle that ends the step. -/
def State.tick (s : State) : State :=
  if s.seq = .await then
    let s1 := { s with timer := s.timer + 1 }
    match s.cur.bind timeoutOf with
    | none => s1
    | some t => if s1.timer.toNat ≥ t.toNat then s1.expire else s1
  else s

/-- `LinkFail` (R110). -/
def State.linkFail (s : State) : State := s.disconnect.post (.only .ioError)

/-- `Reset` (R230): every element of the engine takes its reset value. The environment's events stay (assumption 10). -/
def State.resetEngine (s : State) : State := { State.reset with inbox := s.inbox }

/-- What one event does to the engine. Every step that ends in AWAIT runs Settle before it ends (R40, R145); an Issue
step never ends there. -/
def State.handle (p : Params) (s : State) : Event → State
  | .issue c => s.issueCommand p c
  | .txAccept => s.txAccept.settle p.scanLimit
  | .linkFail => s.linkFail.settle p.scanLimit
  | .rxByte b => (s.rxByte p b).settle p.scanLimit
  | .tick => s.tick.settle p.scanLimit
  | .reset => s.resetEngine.settle p.scanLimit

/-! ## Which event is next (10_state.md R40) -/

/-- R40's "enabled when" column. -/
def Event.enabled (seq : Seq) : Event → Bool
  | .issue _ => seq == .idle
  | .txAccept => seq == .sending
  | .linkFail => seq == .sending || seq == .await
  | .rxByte _ | .tick | .reset => true

/-- The first enabled event of a list and the events left; an event that is not enabled waits (assumption 1). -/
def takeEnabled (seq : Seq) : List Event → Option (Event × List Event)
  | [] => none
  | e :: es =>
      if e.enabled seq then some (e, es)
      else (takeEnabled seq es).map fun (e', es') => (e', e :: es')

end Sys2Proof.Machine
end

