-- ==== Sys2Proof/Machine/Group.lean ====
section
/-! DEFINITION. The group instructions (43_group.md R181 to R189). -/

namespace Sys2Proof.Machine

/-- SYNC_READ, emitted by SYNCREAD (R185). -/
def execSyncRead (addr len : Byte) (ids : List Byte) (t : Ticks) (s : State) : Host.Outcome State Fault Refusal :=
  .next (s.issue (.syncRead addr len ids t))

/-- SYNC_WRITE, emitted by SYNCWRITE (R182). -/
def execSyncWrite (addr len : Byte) (entries : List Entry) (s : State) : Host.Outcome State Fault Refusal :=
  .next (s.issue (.syncWrite addr len entries))

end Sys2Proof.Machine
end

