-- ==== Sys2Proof/Machine/Maintenance.lean ====
section
/-! DEFINITION. The four instructions that only TXN emits (42_transactions.md R157 to R161). -/

namespace Sys2Proof.Machine

/-- RESTORE_PARAMS, emitted by TXN inst=0x06 (R158). -/
def execRestoreParams (id : Byte) (params : List Byte) (t : Ticks) (s : State) : Host.Outcome State Fault Refusal :=
  .next (s.issue (.txn 0x06 id params t))

/-- BACKUP_PARAMS, emitted by TXN inst=0x09 (R159). -/
def execBackupParams (id : Byte) (params : List Byte) (t : Ticks) (s : State) : Host.Outcome State Fault Refusal :=
  .next (s.issue (.txn 0x09 id params t))

/-- RESET, emitted by TXN inst=0x0A (R160). It is a device's reset and not the engine's own Reset event. -/
def execReset (id : Byte) (params : List Byte) (t : Ticks) (s : State) : Host.Outcome State Fault Refusal :=
  .next (s.issue (.txn 0x0A id params t))

/-- POSITION_CALIBRATE, emitted by TXN inst=0x0B (R161). -/
def execPositionCalibrate (id : Byte) (params : List Byte) (t : Ticks) (s : State) :
    Host.Outcome State Fault Refusal :=
  .next (s.issue (.txn 0x0B id params t))

end Sys2Proof.Machine
end

