-- ==== Sys2Proof/Machine/Single.lean ====
section
/-! DEFINITION. The single-device instructions (42_transactions.md R151 to R156). Executing an instruction is the Issue
step of the command that emits it (30_encoding.md R74): what it checks, sends and expects stands in Machine/Operands.lean,
row by row. -/

namespace Sys2Proof.Machine

/-- PING (R151). -/
def execPing (id : Byte) (t : Ticks) (s : State) : Host.Outcome State Fault Refusal :=
  .next (s.issue (.ping id t))

/-- READ (R152). -/
def execRead (id addr len : Byte) (t : Ticks) (s : State) : Host.Outcome State Fault Refusal :=
  .next (s.issue (.read id addr len t))

/-- WRITE (R153). -/
def execWrite (id addr : Byte) (data : List Byte) (t : Ticks) (s : State) : Host.Outcome State Fault Refusal :=
  .next (s.issue (.write id addr data t))

/-- REG_WRITE, emitted by REGWRITE (R154). -/
def execRegWrite (id addr : Byte) (data : List Byte) (t : Ticks) (s : State) : Host.Outcome State Fault Refusal :=
  .next (s.issue (.regWrite id addr data t))

/-- ACTION (R155). -/
def execAction (id : Byte) (t : Ticks) (s : State) : Host.Outcome State Fault Refusal :=
  .next (s.issue (.action id t))

/-- REBOOT (R156). -/
def execReboot (id : Byte) (s : State) : Host.Outcome State Fault Refusal :=
  .next (s.issue (.reboot id))

end Sys2Proof.Machine
end

