-- ==== Sys2Proof/Machine/Dispatch.lean ====
section
/-! DEFINITION. One arm per instruction. -/

namespace Sys2Proof.Machine

def exec (i : Instr) (s : State) : Host.Outcome State Fault Refusal :=
  match i with
  | .ping id t => Sys2Proof.Machine.execPing id t s
  | .read id addr len t => Sys2Proof.Machine.execRead id addr len t s
  | .write id addr data t => Sys2Proof.Machine.execWrite id addr data t s
  | .regWrite id addr data t => Sys2Proof.Machine.execRegWrite id addr data t s
  | .action id t => Sys2Proof.Machine.execAction id t s
  | .restoreParams id params t => Sys2Proof.Machine.execRestoreParams id params t s
  | .reboot id => Sys2Proof.Machine.execReboot id s
  | .backupParams id params t => Sys2Proof.Machine.execBackupParams id params t s
  | .reset id params t => Sys2Proof.Machine.execReset id params t s
  | .positionCalibrate id params t => Sys2Proof.Machine.execPositionCalibrate id params t s
  | .syncRead addr len ids t => Sys2Proof.Machine.execSyncRead addr len ids t s
  | .syncWrite addr len entries => Sys2Proof.Machine.execSyncWrite addr len entries s

end Sys2Proof.Machine
end

