-- ==== Sys2Proof/Machine/Perform.lean ====
section
/-! DEFINITION. One event, and the placing of a host's next command. -/

namespace Sys2Proof.Machine

/-- Carries out one enabled event: an issued instruction runs through `exec`; any other command (OPEN, CLOSE, a TXN
that carries none of its four codes) and every line event through `State.handle`. -/
def perform (p : Params) (e : Event) (s : State) : Host.Outcome State Fault Refusal :=
  match e with
  | .issue c =>
      match instrOf? c with
      | some i => exec i s
      | none => .next (s.handle p (.issue c))
  | e => .next (s.handle p e)

/-- The command a table word stands for: the one that emits the instruction the decoder reads from it. What a word that
is no instruction stands for is the model's choice (DESIGN CHOICE, assumptions 8 and 9; the spec knows no such words):
- a word whose parameter bytes have its row's layout but are more than 253, so that no frame can carry them (R84), stands
  for its row's command with all of them, which the engine refuses;
- a word of an unassigned code (R75), or whose parameter bytes do not have its row's layout, stands for the TXN that
  names its code, which is never one of TXN's four (R157), so the engine refuses it too.
`tableCommand_refused` says that validation (R142) refuses each of them. -/
def tableCommand (nbits w : Nat) : Command :=
  match decodeTableWord nbits w with
  | some i => commandOf i
  | none =>
      match (tableWire nbits w).map (instrOfWire 0) with
      | some (.ok i) => commandOf i
      | _ => .txn (tableByte w 0) 0 [] 0

end Sys2Proof.Machine
end

