-- ==== Sys2Proof/Machine/Step.lean ====
section
/-! DEFINITION. One step of the machine: the first enabled event of the environment's list (10_state.md R40). -/

namespace Sys2Proof.Machine

/-- One step under given parameters. With no enabled event the engine waits and nothing changes (assumption 2). -/
def stepIn (p : Params) (s : State) : Host.Outcome State Fault Refusal :=
  match takeEnabled s.seq s.inbox with
  | none => .next s
  | some (e, rest) => perform p e { s with inbox := rest }

/-- One step of this machine. -/
def step (s : State) : Host.Outcome State Fault Refusal := stepIn Config.params s

/-- The host's next command is the instruction of a table word, and the engine is ready for it, so that the very next
step runs it (assumption 9). -/
def State.withFetchWord (s : State) (nbits w : Nat) : State :=
  { s with seq := .idle, inbox := .issue (tableCommand nbits w) :: s.inbox }

end Sys2Proof.Machine
end

