-- ==== Sys2Proof/Safety.lean ====
section
/-! DEFINITION. The terms in which claims about runs are stated: the invariant of 10_state.md R38, the shape of posted
results (30_encoding.md R88, R90), and short names for runs of line events. -/

namespace Sys2Proof.Machine

/-! ## The engine's invariant -/

/-- A command with a frame that passed validation (R142). -/
def accepted (c : Command) : Bool := (frameOf c).isSome && !badArgument c && !paramsTooLarge c

/-- The invariant of R38, with the facts of R22, R24, R25, R26, R30, R31, R32, R109 and R143 about the same elements. -/
structure EngineInv (p : Params) (s : State) : Prop where
  /-- R38 (a). -/
  busy_open : s.seq ≠ .idle → s.conn = .opened
  /-- R24, R38 (a). -/
  cur_none_iff : s.cur = none ↔ s.seq = .idle
  /-- R38 (b). -/
  sending_iff : s.seq = .sending ↔ 0 < s.txbuf.length ∧ s.txpos < s.txbuf.length
  /-- R25, R205: nothing is left in the transmit buffer outside SENDING. -/
  txbuf_nil : s.seq ≠ .sending → s.txbuf = [] ∧ s.txpos = 0
  /-- R26, R104: the bytes of the frame sent so far are the last bytes on the line. -/
  txlog_sent : ∃ before, s.txlog = before ++ s.txbuf.take s.txpos
  /-- R142, R143: only a command that passed validation is in progress. -/
  cur_accepted : ∀ c, s.cur = some c → accepted c = true
  /-- R25, R143: the buffer holds the frame of the command in progress. -/
  txbuf_frame : s.seq = .sending → (s.cur.bind frameOf).bind encodeFrame = some s.txbuf
  /-- R144: only a command that awaits a response reaches AWAIT. -/
  window_awaits : s.seq = .await → ∀ c, s.cur = some c → awaits c = true
  /-- R38 (c). -/
  window_incomplete : s.seq = .await → decodeResponse p.scanLimit s.rxfifo = .incomplete
  /-- R38 (d). -/
  fifo_bounded : s.rxfifo.length ≤ p.rxFifoDepth
  /-- R38 (e). -/
  closed_fifo : s.conn = .closed → s.rxfifo = []
  /-- R22: the model holds no rate while closed. -/
  closed_baud : s.conn = .closed → s.baud = none
  /-- R38 (f). -/
  timer_zero : s.seq ≠ .await → s.timer = 0
  /-- R30, R205: nothing is heard outside a window. -/
  heard_false : s.seq ≠ .await → s.heard = false
  /-- R109: an open window has not reached its timeout. -/
  timer_below : s.seq = .await → ∀ t, s.cur.bind timeoutOf = some t → s.timer.toNat < max 1 t.toNat
  /-- R38 (g), R31, R189: the resolved slots are the first `slot` devices of the list, and one is still awaited. -/
  slots_resolved : ∀ addr len ids t, s.cur = some (.syncRead addr len ids t) →
    s.slot < ids.length ∧ s.slots.map SlotResult.id = ids.take s.slot
  /-- R31, R32, R186: outside a SYNC_READ's receive windows there are no slots. -/
  slots_nil : (s.seq = .await → ∀ addr len ids t, s.cur ≠ some (.syncRead addr len ids t)) →
    s.slot = 0 ∧ s.slots = []

/-! ## The shape of results -/

/-- The codes that report an exchange whose response was accepted, with the status byte they go with (R210, R211). -/
def statusMatches (code : ResultCode) (status : Option Byte) : Bool :=
  match code, status with
  | .ok, some st => st == 0
  | .flags, some st => st != 0
  | _, _ => false

/-- A slot's error codes (R90). -/
def isSlotError : ResultCode → Bool
  | .notResponding | .timeout | .syncNotFound | .checksumMismatch | .malformed | .idMismatch | .lengthMismatch => true
  | _ => false

/-- A slot result is a data entry with its status or an error entry with neither status nor data (R90). -/
def SlotResult.shaped (sr : SlotResult) : Bool :=
  statusMatches sr.code sr.status || (isSlotError sr.code && sr.status.isNone && sr.data.isEmpty)

/-- A result is an accepted response with its status and no slots, a plain OK (a completed SYNCREAD's carries its
slots), or an error code and nothing else (R88). -/
def Result.shaped (r : Result) : Bool :=
  r.slots.all SlotResult.shaped &&
    ((statusMatches r.code r.status && r.slots.isEmpty)
      || (r.code == .ok && r.status.isNone && r.data.isEmpty)
      || (r.code != .ok && r.code != .flags && r.status.isNone && r.data.isEmpty && r.slots.isEmpty))

/-- Every posted result and every resolved slot has its shape, and `result` is the last entry of the log (R34). -/
structure LogInv (s : State) : Prop where
  results_shaped : ∀ r ∈ s.results, r.shaped = true
  slots_shaped : ∀ sr ∈ s.slots, sr.shaped = true
  /-- R90, R187: a data entry of the SYNC_READ in progress has as many bytes as were asked for. -/
  slots_data : ∀ addr len ids t, s.cur = some (.syncRead addr len ids t) →
    ∀ sr ∈ s.slots, sr.status.isSome = true → sr.data.length = len.toNat
  result_last : s.result = s.results.getLast?

/-! ## Runs of line events -/

/-- The UART takes `n` bytes. -/
def State.acceptBytes (p : Params) (s : State) (n : Nat) : State :=
  (List.replicate n Event.txAccept).foldl (State.handle p) s

/-- `n` ticks pass. -/
def State.passTicks (p : Params) (s : State) (n : Nat) : State :=
  (List.replicate n Event.tick).foldl (State.handle p) s

/-- What the receive line brings next: a byte, or (`none`) a tick in which no byte comes. -/
def lineEvent : Option Byte → Event
  | some b => .rxByte b
  | none => .tick

/-- Bytes arrive with ticks between them. -/
def State.receive (p : Params) (s : State) (line : List (Option Byte)) : State :=
  (line.map lineEvent).foldl (State.handle p) s

/-- The premise a claim about received data needs: no byte was lost (R28, R248). -/
def NoByteLost (s : State) : Prop := s.rxOverrun = false

end Sys2Proof.Machine
end

