-- ==== Sys2Proof/Certificates/Slice0/Obligations.lean ====
section
/-! DEFINITION. Statements for the provers. Each docstring names the rule of spec/ it formalises. -/

open Sys2Proof Sys2Proof.Machine

/-! ## Encoding -/

/-- R71, R73, R76, R82: a listener that knows the timeout reads every well-formed instruction back from its frame,
whatever follows it. -/
def Obligations.InstructionFramesDecodeBack : Prop :=
  ∀ (i : Instr) (t : Ticks) (rest : List Byte), i.wf = true → (∀ u, i.timeout? = some u → u = t) →
    decodeInstr t (encode i ++ rest) = .ok (i, rest)

/-- R71, R73, R74, R76, R82: whatever the decoder accepts is exactly the frame of the instruction it answers. -/
def Obligations.DecodedFramesReencode : Prop :=
  ∀ (t : Ticks) (bytes rest : List Byte) (i : Instr), decodeInstr t bytes = .ok (i, rest) → bytes = encode i ++ rest

/-- Request frames written out byte by byte from 95_test_vectors.md (V1, V3, V5, S27, S30, S35, S31, S36, S34, S38, V7,
G1) stand for their instructions. -/
def Obligations.WrittenOutFramesDecode : Prop :=
  decodeInstr 9 [0xFF, 0xFF, 0x01, 0x02, 0x01, 0xFB] = .ok (.ping 1 9, [])
  ∧ decodeInstr 9 [0xFF, 0xFF, 0x01, 0x04, 0x02, 0x38, 0x02, 0xBE] = .ok (.read 1 0x38 2 9, [])
  ∧ decodeInstr 9 [0xFF, 0xFF, 0x01, 0x09, 0x03, 0x2A, 0x00, 0x08, 0x00, 0x00, 0xE8, 0x03, 0xD5]
      = .ok (.write 1 0x2A [0x00, 0x08, 0x00, 0x00, 0xE8, 0x03] 9, [])
  ∧ decodeInstr 9 [0xFF, 0xFF, 0x01, 0x05, 0x04, 0x2A, 0x00, 0x08, 0xC3] = .ok (.regWrite 1 0x2A [0x00, 0x08] 9, [])
  ∧ decodeInstr 9 [0xFF, 0xFF, 0x01, 0x02, 0x05, 0xF7] = .ok (.action 1 9, [])
  ∧ decodeInstr 9 [0xFF, 0xFF, 0x01, 0x02, 0x06, 0xF6] = .ok (.restoreParams 1 [] 9, [])
  ∧ decodeInstr 9 [0xFF, 0xFF, 0x01, 0x02, 0x08, 0xF4] = .ok (.reboot 1, [])
  ∧ decodeInstr 9 [0xFF, 0xFF, 0x01, 0x02, 0x09, 0xF3] = .ok (.backupParams 1 [] 9, [])
  ∧ decodeInstr 9 [0xFF, 0xFF, 0x01, 0x02, 0x0A, 0xF2] = .ok (.reset 1 [] 9, [])
  ∧ decodeInstr 9 [0xFF, 0xFF, 0x01, 0x03, 0x0B, 0x01, 0xEF] = .ok (.positionCalibrate 1 [0x01] 9, [])
  ∧ decodeInstr 9 [0xFF, 0xFF, 0xFE, 0x07, 0x82, 0x38, 0x02, 0x03, 0x01, 0x02, 0x38]
      = .ok (.syncRead 0x38 2 [3, 1, 2] 9, [])
  ∧ decodeInstr 9 [0xFF, 0xFF, 0xFE, 0x0A, 0x83, 0x2A, 0x02, 0x01, 0x00, 0x08, 0x02, 0x00, 0x04, 0x39]
      = .ok (.syncWrite 0x2A 2 [⟨1, [0x00, 0x08]⟩, ⟨2, [0x00, 0x04]⟩], [])

/-- R74, R75: the twelve codes select their rows by exact match, and the values 0x00, 0x07, 0x0C to 0x81 and 0x84 to
0xFF select none. -/
def Obligations.UnassignedCodesSelectNoRow : Prop :=
  (∀ (o : Opcode) (b : Byte), opcodeOf? b = some o ↔ b = o.code)
  ∧ ∀ b : Byte, opcodeOf? b = none ↔
      b = 0x00 ∨ b = 0x07 ∨ (0x0C ≤ b.toNat ∧ b.toNat ≤ 0x81) ∨ 0x84 ≤ b.toNat

/-- R124: encoding fails exactly when there are more than 253 parameters, and otherwise gives `6 + P` bytes. An
instruction with that many, whose arguments are otherwise right, is refused with PARAMS_TOO_LARGE and nothing is sent
(R219). -/
def Obligations.EncodingFailsExactlyAbove253Params : Prop :=
  (∀ w : Wire, (encodeFrame w = none ↔ w.params.length > 253)
    ∧ ∀ f, encodeFrame w = some f → f.length = w.params.length + 6)
  ∧ ∀ (i : Instr) (s : State), s.seq = .idle → s.conn = .opened → badArgument (commandOf i) = false →
      i.params.length > 253 →
      exec i s = .next
        { conn := s.conn, baud := s.baud, seq := .idle, cur := none, txbuf := [], txpos := 0, rxfifo := s.rxfifo,
          rxOverrun := s.rxOverrun, timer := 0, heard := false, slot := 0, slots := [],
          result := some ⟨.paramsTooLarge, none, [], []⟩,
          results := s.results ++ [⟨.paramsTooLarge, none, [], []⟩], txlog := s.txlog, inbox := s.inbox }

/-- R122: the bytes from ID through CHECKSUM of a frame that the encoder builds or that the decoder accepts sum to 255
mod 256, and checking that sum is the same as comparing the checksum byte. The frame the decoder accepts is the
consumed bytes from its sync marker on. -/
def Obligations.FrameBytesSumTo255 : Prop :=
  (∀ (w : Wire) (f : List Byte), encodeFrame w = some f → sumBytes (f.drop 2) % 256 = 255)
  ∧ (∀ (scanLimit i n : Nat) (s : List Byte) (id status : Byte) (params : List Byte),
      decodeResponse scanLimit s = .found (.ok id status params) n → findSync s = some i →
        sumBytes ((s.take n).drop (i + 2)) % 256 = 255)
  ∧ ∀ (id len b4 c : Byte) (params : List Byte),
      sumBytes ([id, len, b4] ++ params ++ [c]) % 256 = 255 ↔ c = checksum id len b4 params

/-- A confirmed sync, by index (R125). -/
def confirmedSync (s : List Byte) (i : Nat) : Prop :=
  i + 2 < s.length ∧ s[i]? = some 0xFF ∧ s[i + 1]? = some 0xFF ∧ s[i + 2]? ≠ some 0xFF

/-- R125: a confirmed sync is found exactly when there is one, and it is the one of least index. -/
def Obligations.LeastConfirmedSyncIsUsed : Prop :=
  ∀ s : List Byte,
    (∀ i, findSync s = some i ↔ confirmedSync s i ∧ ∀ j < i, ¬confirmedSync s j)
    ∧ (findSync s = none ↔ ∀ i, ¬confirmedSync s i)

/-- R126: the whole of `decode`, by indices into the byte sequence: what it finds and how many bytes it consumes. -/
def Obligations.DecodeFollowsItsRule : Prop :=
  ∀ (scanLimit : Nat) (s : List Byte),
    ((∀ i < scanLimit, ¬confirmedSync s i) →
      decodeResponse scanLimit s
        = if s.length ≥ scanLimit + 2 then .found .syncNotFound scanLimit else .incomplete)
    ∧ ∀ i < scanLimit, confirmedSync s i → (∀ j < i, ¬confirmedSync s j) →
        let id := s.getD (i + 2) 0
        let len := (s.getD (i + 3) 0).toNat
        let b4 := s.getD (i + 4) 0
        let params := (s.drop (i + 5)).take (len - 2)
        let c := s.getD (i + 3 + len) 0
        decodeResponse scanLimit s
          = if s.length < i + 4 then .incomplete
            else if len < 2 then .found .malformed (i + 4)
            else if s.length < i + 4 + len then .incomplete
            else if c ≠ checksum id (s.getD (i + 3) 0) b4 params then .found .checksumMismatch (i + 4 + len)
            else .found (.ok id b4 params) (i + 4 + len)

/-- R127: SyncNotFound is returned exactly when no confirmed sync starts below `SCAN_LIMIT` and at least
`SCAN_LIMIT + 2` bytes are buffered, and it consumes exactly `SCAN_LIMIT` bytes. -/
def Obligations.SyncNotFoundConsumesScanLimit : Prop :=
  ∀ (scanLimit n : Nat) (s : List Byte),
    decodeResponse scanLimit s = .found .syncNotFound n ↔
      n = scanLimit ∧ (∀ i < scanLimit, ¬confirmedSync s i) ∧ s.length ≥ scanLimit + 2

/-- R133: a decode that is not Incomplete consumes at least one byte and no more than there are. -/
def Obligations.DecodeConsumesAtLeastOneByte : Prop :=
  ∀ (p : Params) (s : List Byte) (r : FrameResult) (n : Nat),
    decodeResponse p.scanLimit s = .found r n → 1 ≤ n ∧ n ≤ s.length

/-- R134: the round trip of a frame through the response decoder, whatever follows it, for every scan limit. -/
def Obligations.DecodeRecoversEncodedFrame : Prop :=
  ∀ (p : Params) (w : Wire) (s : List Byte), w.id.toNat ≤ 254 → w.params.length ≤ 253 →
    ∃ f, encodeFrame w = some f
      ∧ decodeResponse p.scanLimit (f ++ s) = .found (.ok w.id w.inst w.params) (w.params.length + 6)

/-- A frame with bit `k` of byte `j` flipped (R135). -/
def flipBit (f : List Byte) (j k : Nat) : List Byte := f.set j (f.getD j 0 ^^^ (1#8 <<< k))

/-- R135: what one flipped bit in a frame does to its decoding, by the byte it is in. In byte 4, a parameter or the
checksum it gives ChecksumMismatch, and so in the ID, unless the ID becomes 0xFF. In LEN it gives Malformed, Incomplete
or ChecksumMismatch by the value LEN takes, or for a shorter LEN, by coincidence, Ok with fewer parameters. In a sync
byte, or where the ID becomes 0xFF, index 0 is no confirmed sync, and nothing more is said. -/
def Obligations.SingleBitSensitivity : Prop :=
  ∀ (p : Params) (w : Wire) (j k : Nat), w.id.toNat ≤ 254 → w.params.length ≤ 253 → k < 8 →
    j < w.params.length + 6 →
    let f' := flipBit w.frame j k
    (4 ≤ j → decodeResponse p.scanLimit f' = .found .checksumMismatch (w.params.length + 6))
    ∧ (j = 2 → f'.getD 2 0 ≠ 0xFF →
        decodeResponse p.scanLimit f' = .found .checksumMismatch (w.params.length + 6))
    ∧ (j = 2 → f'.getD 2 0 = 0xFF →
        w.id ∈ ([0x7F, 0xBF, 0xDF, 0xEF, 0xF7, 0xFB, 0xFD, 0xFE] : List Byte) ∧ ¬confirmedSync f' 0)
    ∧ (j = 3 → (f'.getD 3 0).toNat < 2 → decodeResponse p.scanLimit f' = .found .malformed 4)
    ∧ (j = 3 → (f'.getD 3 0).toNat > w.params.length + 2 → decodeResponse p.scanLimit f' = .incomplete)
    ∧ (j = 3 → 2 ≤ (f'.getD 3 0).toNat → (f'.getD 3 0).toNat < w.params.length + 2 →
        decodeResponse p.scanLimit f' = .found .checksumMismatch (4 + (f'.getD 3 0).toNat)
        ∨ ∃ params, params.length < w.params.length
            ∧ decodeResponse p.scanLimit f' = .found (.ok w.id w.inst params) (4 + (f'.getD 3 0).toNat))
    ∧ (j < 2 → ¬confirmedSync f' 0)

/-! ## Reset and the sequencer -/

/-- The values of R42's table, with the environment's pending events. -/
def resetValues (inbox : List Event) : State :=
  { conn := .closed, baud := none, seq := .idle, cur := none, txbuf := [], txpos := 0, rxfifo := [],
    rxOverrun := false, timer := 0, heard := false, slot := 0, slots := [], result := none, results := [],
    txlog := [], inbox := inbox }

/-- R42, R230: the Reset event is always enabled and gives every element of the engine its reset value; power-on gives
the same values. Nothing is said of the environment's events. -/
def Obligations.ResetEventGivesResetValues : Prop :=
  (∀ (p : Params) (s : State) (rest : List Event),
    ∃ inbox, stepIn p { s with inbox := .reset :: rest } = .next (resetValues inbox))
  ∧ ∃ inbox, Sys2Proof.core.reset = resetValues inbox

/-- R36: `ready` holds exactly in IDLE, `tx_en` exactly in SENDING, and `tx_data` is the byte at the transmit position
while SENDING. -/
def Obligations.OutputsFollowTheSequencer : Prop :=
  ∀ s : State, (s.ready = true ↔ s.seq = .idle) ∧ (s.txEn = true ↔ s.seq = .sending)
    ∧ ∀ (b : Byte), s.seq = .sending → (s.txData = some b ↔ s.txbuf[s.txpos]? = some b)

/-- R40: a step handles the first enabled event of the environment's list; where none is enabled the engine waits
(log entries 1 and 2). No step faults and none is refused. Which event is enabled when is R40's table. -/
def Obligations.StepHandlesFirstEnabledEvent : Prop :=
  (∀ (p : Params) (s : State) (waiting rest : List Event) (e : Event),
      (∀ w ∈ waiting, w.enabled s.seq = false) → e.enabled s.seq = true →
      stepIn p { s with inbox := waiting ++ e :: rest }
        = .next ({ s with inbox := waiting ++ rest }.handle p e))
  ∧ (∀ (p : Params) (s : State), (∀ w ∈ s.inbox, w.enabled s.seq = false) → stepIn p s = .next s)
  ∧ ∀ (seq : Seq) (e : Event), e.enabled seq = true ↔
      match e with
      | .issue _ => seq = .idle
      | .txAccept => seq = .sending
      | .linkFail => seq = .sending ∨ seq = .await
      | .rxByte _ | .tick | .reset => True

/-- A step whose next event issues an instruction is that instruction's `exec` on the state without the event
(R141). -/
def Obligations.StepRunsTheIssuedInstruction : Prop :=
  ∀ (s : State) (c : Command) (i : Instr) (rest : List Event),
    s.seq = .idle → instrOf? c = some i →
      step { s with inbox := .issue c :: rest } = exec i { s with inbox := rest }

/-- The bytes of a table word that decode to an instruction make the next step run exactly that instruction
(log entries 8 and 9). -/
def Obligations.StepRunsTheDecodedWord : Prop :=
  ∀ (s : State) (nbits w : Nat) (i : Instr),
    decodeTableWord nbits w = some i → step (s.withFetchWord nbits w) = exec i { s with seq := .idle }

/-! ## Instructions start their frames -/

/-- The state in which a command's frame is about to be sent (R141, R143): the command latched, the frame in the
buffer, nothing sent yet, everything else as before. -/
def sendingState (s : State) (c : Command) (frame : List Byte) : State :=
  { s with cur := some c, txbuf := frame, txpos := 0, seq := .sending }

/-- 42_transactions.md, PING: given an ID of 0 to 253, an idle engine with an open connection latches the command and
starts to send its frame, and nothing else changes. -/
def Obligations.PingStartsItsFrame : Prop :=
  ∀ (s : State) (id : Byte) (t : Ticks), s.seq = .idle → s.conn = .opened → id.toNat ≤ 253 →
    exec (.ping id t) s = .next (sendingState s (.ping id t) [0xFF, 0xFF, id, 2, 0x01, ~~~(id + 3)])

/-- 42_transactions.md, READ: given an ID of 0 to 253 and a length of 1 to 253, an idle engine with an open connection
latches the command and starts to send its frame, and nothing else changes. -/
def Obligations.ReadStartsItsFrame : Prop :=
  ∀ (s : State) (id addr len : Byte) (t : Ticks), s.seq = .idle → s.conn = .opened → id.toNat ≤ 253 →
    1 ≤ len.toNat → len.toNat ≤ 253 →
    exec (.read id addr len t) s
      = .next (sendingState s (.read id addr len t)
          [0xFF, 0xFF, id, 4, 0x02, addr, len, ~~~(id + 4 + 0x02 + addr + len)])

/-- The sum of bytes modulo 256, in byte arithmetic. -/
def byteSum (s : List Byte) : Byte := s.foldr (· + ·) 0

/-- 42_transactions.md, WRITE and REGWRITE: given an ID of 0 to 254 and 1 to 252 data bytes, an idle engine with an open
connection latches the command and starts to send its frame, and nothing else changes. -/
def Obligations.WritesStartTheirFrames : Prop :=
  ∀ (s : State) (id addr : Byte) (data : List Byte) (t : Ticks), s.seq = .idle → s.conn = .opened →
    id.toNat ≤ 254 → 1 ≤ data.length → data.length ≤ 252 →
    exec (.write id addr data t) s
      = .next (sendingState s (.write id addr data t)
          ([0xFF, 0xFF, id, BitVec.ofNat 8 (data.length + 3), 0x03, addr] ++ data
            ++ [~~~(id + BitVec.ofNat 8 (data.length + 3) + 0x03 + addr + byteSum data)]))
    ∧ exec (.regWrite id addr data t) s
      = .next (sendingState s (.regWrite id addr data t)
          ([0xFF, 0xFF, id, BitVec.ofNat 8 (data.length + 3), 0x04, addr] ++ data
            ++ [~~~(id + BitVec.ofNat 8 (data.length + 3) + 0x04 + addr + byteSum data)]))

/-- 42_transactions.md, ACTION and REBOOT: given an ID of 0 to 254, an idle engine with an open connection latches the
command and starts to send its frame, and nothing else changes. -/
def Obligations.ActionAndRebootStartTheirFrames : Prop :=
  ∀ (s : State) (id : Byte) (t : Ticks), s.seq = .idle → s.conn = .opened → id.toNat ≤ 254 →
    exec (.action id t) s = .next (sendingState s (.action id t) [0xFF, 0xFF, id, 2, 0x05, ~~~(id + 7)])
    ∧ exec (.reboot id) s = .next (sendingState s (.reboot id) [0xFF, 0xFF, id, 2, 0x08, ~~~(id + 10)])

/-- The frame of a TXN instruction. -/
def txnFrame (inst id : Byte) (params : List Byte) : List Byte :=
  [0xFF, 0xFF, id, BitVec.ofNat 8 (params.length + 2), inst] ++ params
    ++ [~~~(id + BitVec.ofNat 8 (params.length + 2) + inst + byteSum params)]

/-- 42_transactions.md, TXN: given an ID of 0 to 254 and at most 253 parameter bytes, an idle engine with an open
connection latches the TXN of RESTORE_PARAMS, BACKUP_PARAMS, RESET or POSITION_CALIBRATE and starts to send its frame,
and nothing else changes. -/
def Obligations.MaintenanceStartsItsFrames : Prop :=
  ∀ (s : State) (id : Byte) (params : List Byte) (t : Ticks), s.seq = .idle → s.conn = .opened →
    id.toNat ≤ 254 → params.length ≤ 253 →
    exec (.restoreParams id params t) s
      = .next (sendingState s (.txn 0x06 id params t) (txnFrame 0x06 id params))
    ∧ exec (.backupParams id params t) s
      = .next (sendingState s (.txn 0x09 id params t) (txnFrame 0x09 id params))
    ∧ exec (.reset id params t) s
      = .next (sendingState s (.txn 0x0A id params t) (txnFrame 0x0A id params))
    ∧ exec (.positionCalibrate id params t) s
      = .next (sendingState s (.txn 0x0B id params t) (txnFrame 0x0B id params))

/-- 43_group.md, SYNCREAD: given a length of 1 to 253 and 1 to 251 distinct device IDs, an idle engine with an open
connection latches the command and starts to send its one broadcast frame, and nothing else changes. -/
def Obligations.SyncReadStartsItsFrame : Prop :=
  ∀ (s : State) (addr len : Byte) (ids : List Byte) (t : Ticks), s.seq = .idle → s.conn = .opened →
    1 ≤ len.toNat → len.toNat ≤ 253 → 1 ≤ ids.length → ids.length ≤ 251 → (∀ id ∈ ids, id.toNat ≤ 253) →
    ids.Nodup →
    exec (.syncRead addr len ids t) s
      = .next (sendingState s (.syncRead addr len ids t)
          ([0xFF, 0xFF, 0xFE, BitVec.ofNat 8 (ids.length + 4), 0x82, addr, len] ++ ids
            ++ [~~~(0xFE + BitVec.ofNat 8 (ids.length + 4) + 0x82 + addr + len + byteSum ids)]))

/-- 43_group.md, SYNCWRITE: given distinct device IDs with equally long data that fit a frame, an idle engine with an
open connection latches the command and starts to send one broadcast frame with the devices' blocks in list order, and
nothing else changes. -/
def Obligations.SyncWriteStartsItsFrame : Prop :=
  ∀ (s : State) (addr len : Byte) (entries : List Entry), s.seq = .idle → s.conn = .opened →
    1 ≤ len.toNat → 1 ≤ entries.length → entries.length * (len.toNat + 1) ≤ 251 →
    (∀ e ∈ entries, e.id.toNat ≤ 253 ∧ e.data.length = len.toNat) → (entries.map Entry.id).Nodup →
    exec (.syncWrite addr len entries) s
      = .next (sendingState s (.syncWrite addr len entries)
          ([0xFF, 0xFF, 0xFE, BitVec.ofNat 8 (entries.length * (len.toNat + 1) + 4), 0x83, addr, len]
            ++ (entries.map fun e => e.id :: e.data).flatten
            ++ [~~~(0xFE + BitVec.ofNat 8 (entries.length * (len.toNat + 1) + 4) + 0x83 + addr + len
                  + byteSum (entries.map fun e => e.id :: e.data).flatten)]))

/-! ## Refusals -/

/-- What `Post` leaves (R205): the result published, the engine idle with its working elements cleared, and
connection, rate, FIFO, overrun flag, TX log and the environment's events untouched. -/
def postedState (s : State) (r : Result) : State :=
  { conn := s.conn, baud := s.baud, seq := .idle, cur := none, txbuf := [], txpos := 0, rxfifo := s.rxfifo,
    rxOverrun := s.rxOverrun, timer := 0, heard := false, slot := 0, slots := [], result := some r,
    results := s.results ++ [r], txlog := s.txlog, inbox := s.inbox }

/-- A result that is only a code. -/
def codeOnly (code : ResultCode) : Result := { code := code, status := none, data := [], slots := [] }

/-- R102, R224: while closed every command but OPEN and CLOSE posts NOT_OPEN and changes nothing else. The invariant of
R38 is the premise, since Post clears the elements that are clear in IDLE. -/
def Obligations.ClosedEngineAnswersNotOpen : Prop :=
  ∀ (p : Params) (s : State) (c : Command), EngineInv p s → s.seq = .idle → s.conn = .closed →
    (∀ baud present, c ≠ .openPort baud present) → c ≠ .closePort →
    s.handle p (.issue c)
      = { s with result := some (codeOnly .notOpen), results := s.results ++ [codeOnly .notOpen] }

/-- R142, with R181 and R184 for the group commands: NOT_OPEN is checked first, then the argument column, then the size
column; the first that fails posts its code. -/
def Obligations.ValidationFollowsItsTable : Prop :=
  ∀ (p : Params) (s : State) (c : Command), s.seq = .idle →
    (∀ bad large : Prop,
      (match c with
        | .ping id _ => (bad ↔ id.toNat > 253) ∧ ¬large
        | .read id _ len _ => (bad ↔ id.toNat > 253 ∨ len = 0 ∨ len.toNat > 253) ∧ ¬large
        | .write id _ data _ => (bad ↔ id.toNat > 254 ∨ data = []) ∧ (large ↔ 1 + data.length > 253)
        | .regWrite id _ data _ => (bad ↔ id.toNat > 254 ∨ data = []) ∧ (large ↔ 1 + data.length > 253)
        | .action id _ => (bad ↔ id.toNat > 254) ∧ ¬large
        | .reboot id => (bad ↔ id.toNat > 254) ∧ ¬large
        | .txn inst id params _ =>
            (bad ↔ (inst ≠ 0x06 ∧ inst ≠ 0x09 ∧ inst ≠ 0x0A ∧ inst ≠ 0x0B) ∨ id.toNat > 254)
              ∧ (large ↔ params.length > 253)
        | .syncWrite _ len entries =>
            (bad ↔ entries = [] ∨ len = 0 ∨ (∃ e ∈ entries, e.id.toNat > 253) ∨ ¬(entries.map Entry.id).Nodup
                ∨ (∃ e ∈ entries, e.data.length ≠ len.toNat))
              ∧ (large ↔ 2 + entries.length * (len.toNat + 1) > 253)
        | .syncRead _ len ids _ =>
            (bad ↔ ids = [] ∨ len = 0 ∨ len.toNat > 253 ∨ (∃ id ∈ ids, id.toNat > 253) ∨ ¬ids.Nodup)
              ∧ (large ↔ 2 + ids.length > 253)
        | .openPort _ _ | .closePort => False) →
      (s.conn = .closed → s.handle p (.issue c) = postedState s (codeOnly .notOpen))
      ∧ (s.conn = .opened → bad → s.handle p (.issue c) = postedState s (codeOnly .badArgument))
      ∧ (s.conn = .opened → ¬bad → large → s.handle p (.issue c) = postedState s (codeOnly .paramsTooLarge))
      ∧ (s.conn = .opened → ¬bad → ¬large → (s.handle p (.issue c)).seq = .sending))

/-- R181: SYNCWRITE's bad arguments, then its size limit, after the check that the connection is open. -/
def Obligations.SyncWriteValidation : Prop :=
  ∀ (s : State) (addr len : Byte) (entries : List Entry), s.seq = .idle →
    let bad := entries = [] ∨ len = 0 ∨ (∃ e ∈ entries, e.id.toNat > 253) ∨ ¬(entries.map Entry.id).Nodup
      ∨ (∃ e ∈ entries, e.data.length ≠ len.toNat)
    let large := 2 + entries.length * (len.toNat + 1) > 253
    let answers := fun t => exec (.syncWrite addr len entries) s = .next t
    (s.conn = .closed → answers (postedState s (codeOnly .notOpen)))
    ∧ (s.conn = .opened → bad → answers (postedState s (codeOnly .badArgument)))
    ∧ (s.conn = .opened → ¬bad → large → answers (postedState s (codeOnly .paramsTooLarge)))
    ∧ (s.conn = .opened → ¬bad → ¬large → ∃ t, answers t ∧ t.seq = .sending ∧ t.results = s.results)

/-- R184: SYNCREAD's bad arguments, then its size limit, after the check that the connection is open. -/
def Obligations.SyncReadValidation : Prop :=
  ∀ (s : State) (addr len : Byte) (ids : List Byte) (t : Ticks), s.seq = .idle →
    let bad := ids = [] ∨ len = 0 ∨ len.toNat > 253 ∨ (∃ id ∈ ids, id.toNat > 253) ∨ ¬ids.Nodup
    let large := 2 + ids.length > 253
    let answers := fun s' => exec (.syncRead addr len ids t) s = .next s'
    (s.conn = .closed → answers (postedState s (codeOnly .notOpen)))
    ∧ (s.conn = .opened → bad → answers (postedState s (codeOnly .badArgument)))
    ∧ (s.conn = .opened → ¬bad → large → answers (postedState s (codeOnly .paramsTooLarge)))
    ∧ (s.conn = .opened → ¬bad → ¬large → ∃ s', answers s' ∧ s'.seq = .sending ∧ s'.results = s.results)

/-- The engine's validation accepts exactly the instructions that have an encoding, and what it then sends is that
encoding; any other instruction is refused with BAD_ARGUMENT or PARAMS_TOO_LARGE and nothing is sent. -/
def Obligations.EngineAcceptsExactlyWellFormedInstructions : Prop :=
  ∀ (i : Instr) (s : State), s.seq = .idle → s.conn = .opened →
    (i.wf = true → exec i s = .next (sendingState s (commandOf i) (encode i)))
    ∧ (i.wf = false → exec i s = .next (postedState s (codeOnly .badArgument))
        ∨ exec i s = .next (postedState s (codeOnly .paramsTooLarge)))

/-- The frame of every instruction's Issue step: connection, rate, FIFO, overrun flag and TX log never change. Where
the engine is ready, either the result log and every window element stay (the frame starts) or one result is posted
and nothing is sent. Where it is busy, only the host's waiting command is kept (log entry 3). -/
def Obligations.IssuingAnInstructionFrame : Prop :=
  ∀ (i : Instr) (s s' : State), exec i s = .next s' →
    (s'.conn = s.conn ∧ s'.baud = s.baud ∧ s'.rxfifo = s.rxfifo ∧ s'.rxOverrun = s.rxOverrun ∧ s'.txlog = s.txlog)
    ∧ (s.seq = .idle → s'.inbox = s.inbox
        ∧ ((s'.seq = .sending ∧ s'.cur = some (commandOf i) ∧ s'.txpos = 0 ∧ s'.timer = s.timer ∧ s'.heard = s.heard
              ∧ s'.slot = s.slot ∧ s'.slots = s.slots ∧ s'.result = s.result ∧ s'.results = s.results)
            ∨ ∃ code, s' = postedState s (codeOnly code)))
    ∧ (s.seq ≠ .idle → s' = { s with inbox := .issue (commandOf i) :: s.inbox })

/-! ## Transport -/

/-- R101: OPEN first closes an open connection; it fails with PORT_UNAVAILABLE before UNSUPPORTED_BAUD, or opens at its
rate with the FIFO empty and the overrun flag clear. -/
def Obligations.OpenFollowsItsRule : Prop :=
  ∀ (p : Params) (s : State) (baud : Nat) (present : Bool), s.seq = .idle →
    let s1 := if s.conn = .opened then { s with conn := .closed, baud := none, rxfifo := [] } else s
    let answer := s.handle p (.issue (.openPort baud present))
    (present = false → answer = postedState s1 (codeOnly .portUnavailable))
    ∧ (present = true → p.supportsBaud baud = false → answer = postedState s1 (codeOnly .unsupportedBaud))
    ∧ (present = true → p.supportsBaud baud = true →
        answer = { postedState s (codeOnly .ok) with
          conn := .opened, baud := some baud, rxfifo := [], rxOverrun := false })

/-- R103: CLOSE closes, keeps the overrun flag, always posts OK, and a second CLOSE changes only the result log. -/
def Obligations.CloseIsIdempotent : Prop :=
  ∀ (p : Params) (s : State), s.seq = .idle →
    let s1 := s.handle p (.issue .closePort)
    s1 = { postedState s (codeOnly .ok) with conn := .closed, baud := none, rxfifo := [] }
    ∧ s1.handle p (.issue .closePort) = { s1 with results := s1.results ++ [codeOnly .ok] }

/-- R21: only a successful OPEN makes a closed connection open; CLOSE, a link failure and reset close it, and beside
them only an OPEN that reopens and fails does (R101). -/
def Obligations.OnlyOpenOpensTheConnection : Prop :=
  ∀ (p : Params) (s : State) (e : Event), e.enabled s.seq = true →
    (s.conn = .closed → (s.handle p e).conn = .opened →
      ∃ baud, e = .issue (.openPort baud true) ∧ p.supportsBaud baud = true ∧ (s.handle p e).baud = some baud)
    ∧ (e = .issue .closePort ∨ e = .linkFail ∨ e = .reset → (s.handle p e).conn = .closed)
    ∧ (s.conn = .opened → (s.handle p e).conn = .closed →
      e = .issue .closePort ∨ (∃ baud present, e = .issue (.openPort baud present)) ∨ e = .linkFail ∨ e = .reset)

/-- The commands after whose frame a response is awaited (R144): every single-device command but REBOOT, unless it is
broadcast, and SYNCREAD. -/
def opensWindow : Command → Prop
  | .ping id _ | .read id _ _ _ | .write id _ _ _ | .regWrite id _ _ _ | .action id _ | .txn _ id _ _ => id ≠ 0xFE
  | .syncRead _ _ _ _ => True
  | .openPort _ _ | .closePort | .reboot _ | .syncWrite _ _ _ => False

/-- The response a single-device command awaits: the ID it must carry and its parameter count, none where any count is
right (R33, R77). -/
def awaitedResponse : Command → Option (Byte × Option Nat)
  | .ping id _ | .write id _ _ _ | .regWrite id _ _ _ | .action id _ => some (id, some 0)
  | .read id _ len _ => some (id, some len.toNat)
  | .txn _ id _ _ => some (id, none)
  | .openPort _ _ | .closePort | .reboot _ | .syncWrite _ _ _ | .syncRead _ _ _ _ => none

/-- The timeout operand of a command (R86). -/
def timeoutOperand : Command → Option Ticks
  | .ping _ t | .read _ _ _ t | .write _ _ _ t | .regWrite _ _ _ t | .action _ t | .txn _ _ _ t => some t
  | .syncRead _ _ _ t => some t
  | .openPort _ _ | .closePort | .reboot _ | .syncWrite _ _ _ => none

/-- R104, R144: TxAccept appends the offered byte to the line and moves on; nothing else changes while bytes remain.
The byte that ends the frame opens the receive window, with the bytes already in the FIFO heard, and Settle follows;
or, where no response is awaited, it posts a plain OK. -/
def Obligations.TxAcceptFollowsItsRule : Prop :=
  ∀ (p : Params) (s : State) (b : Byte), s.seq = .sending → s.txbuf[s.txpos]? = some b →
    (s.txpos + 1 < s.txbuf.length →
      s.handle p .txAccept = { s with txlog := s.txlog ++ [b], txpos := s.txpos + 1 })
    ∧ ∀ c, s.txpos + 1 = s.txbuf.length → s.cur = some c →
        let window := { s with txlog := s.txlog ++ [b], txbuf := [], txpos := 0, seq := .await, slot := 0, timer := 0,
                               heard := decide (s.rxfifo ≠ []) }
        (opensWindow c → s.handle p .txAccept = window.settle p.scanLimit
          ∧ (decodeResponse p.scanLimit s.rxfifo = .incomplete → s.handle p .txAccept = window))
        ∧ (¬opensWindow c →
            s.handle p .txAccept = { postedState s (codeOnly .ok) with txlog := s.txlog ++ [b] })

/-- An accepted instruction's whole frame goes out, byte by byte and in order; a command that awaits no response then
posts a plain OK without touching the receive path (R61, R104, R144, R162). -/
def Obligations.IssuedFrameGoesOutWhole : Prop :=
  ∀ (p : Params) (i : Instr) (s : State), s.seq = .idle → s.conn = .opened → i.wf = true →
    ∃ s1, exec i s = .next s1
      ∧ (∀ k < (encode i).length, s1.acceptBytes p k
          = { sendingState s (commandOf i) (encode i) with txpos := k, txlog := s.txlog ++ (encode i).take k })
      ∧ (s1.acceptBytes p (encode i).length).txlog = s.txlog ++ encode i
      ∧ (¬opensWindow (commandOf i) → s1.acceptBytes p (encode i).length
          = { postedState s (codeOnly .ok) with txlog := s.txlog ++ encode i })

/-- R115: SENDING ends with the whole frame on the line, in IO_ERROR, or by reset, which posts nothing. -/
def Obligations.SendingEndsWithTheWholeFrameOrIoError : Prop :=
  ∀ (p : Params) (s : State) (e : Event), EngineInv p s → s.seq = .sending → e.enabled s.seq = true →
    (s.handle p e).seq ≠ .sending →
    (e = .txAccept ∧ ∃ sent, (s.handle p e).txlog = sent ++ s.txbuf)
    ∨ (e = .linkFail ∧ (s.handle p e).result = some (codeOnly .ioError))
    ∨ (e = .reset ∧ (s.handle p e).result = none)

/-- R114, R250: as long as no byte is taken, the link does not fail and no reset comes, the engine stays in SENDING,
whatever bytes come and however many ticks pass: `ready` stays low, and nothing is sent or posted. -/
def Obligations.TransmitHangIsKept : Prop :=
  ∀ (p : Params) (events : List Event) (s : State), s.seq = .sending →
    (∀ e ∈ events, e.enabled .sending = true ∧ e ≠ .txAccept ∧ e ≠ .linkFail ∧ e ≠ .reset) →
    let s' := events.foldl (State.handle p) s
    s'.seq = .sending ∧ s'.ready = false ∧ s'.cur = s.cur ∧ s'.txbuf = s.txbuf ∧ s'.txpos = s.txpos
      ∧ s'.txlog = s.txlog ∧ s'.results = s.results

/-- R106: a byte is lost while closed, appended while there is room, and dropped with the overrun flag set when the
FIFO is full. In a receive window it is also heard, and Settle follows; a kept byte that settles nothing only joins the
FIFO. -/
def Obligations.ReceivedByteFollowsItsRule : Prop :=
  ∀ (p : Params) (s : State) (b : Byte),
    (s.seq ≠ .await →
      (s.conn = .closed → s.handle p (.rxByte b) = s)
      ∧ (s.conn = .opened → s.rxfifo.length < p.rxFifoDepth →
          s.handle p (.rxByte b) = { s with rxfifo := s.rxfifo ++ [b] })
      ∧ (s.conn = .opened → p.rxFifoDepth ≤ s.rxfifo.length →
          s.handle p (.rxByte b) = { s with rxOverrun := true }))
    ∧ (s.seq = .await → s.conn = .opened →
      let kept := { s with rxfifo := s.rxfifo ++ [b], heard := true }
      let dropped := { s with rxOverrun := true, heard := true }
      (s.rxfifo.length < p.rxFifoDepth → s.handle p (.rxByte b) = kept.settle p.scanLimit
        ∧ (decodeResponse p.scanLimit kept.rxfifo = .incomplete → s.handle p (.rxByte b) = kept))
      ∧ (p.rxFifoDepth ≤ s.rxfifo.length → s.handle p (.rxByte b) = dropped.settle p.scanLimit))

/-- R28: the overrun flag is set by a byte that finds the FIFO of an open connection full, and by nothing else; it is
cleared by a successful OPEN and by reset, and by nothing else. -/
def Obligations.OverrunFlagIsSticky : Prop :=
  ∀ (p : Params) (s : State) (e : Event), e.enabled s.seq = true →
    (∀ b, e = .rxByte b → s.conn = .opened → p.rxFifoDepth ≤ s.rxfifo.length → (s.handle p e).rxOverrun = true)
    ∧ (s.rxOverrun = false → (s.handle p e).rxOverrun = true → ∃ b, e = .rxByte b ∧ p.rxFifoDepth ≤ s.rxfifo.length)
    ∧ (e = .reset ∨ (∃ baud present, e = .issue (.openPort baud present) ∧ (s.handle p e).conn = .opened) →
        (s.handle p e).rxOverrun = false)
    ∧ (s.rxOverrun = true → (s.handle p e).rxOverrun = false →
        e = .reset ∨ ∃ baud, e = .issue (.openPort baud true) ∧ (s.handle p e).conn = .opened)

/-- R110: a link failure happens only while SENDING or in AWAIT; it closes the connection, empties the FIFO and posts
IO_ERROR without slots. -/
def Obligations.LinkFailureIsFatal : Prop :=
  ∀ (p : Params) (s : State),
    (Event.linkFail.enabled s.seq = true ↔ s.seq = .sending ∨ s.seq = .await)
    ∧ s.handle p .linkFail
        = { postedState s (codeOnly .ioError) with conn := .closed, baud := none, rxfifo := [] }

/-! ## Time -/

/-- R109, R148, R188: outside a window a tick changes nothing. In a window it counts, and the tick that brings the
count to the timeout ends the window: a single-device command posts NOT_RESPONDING if it is a PING or nothing was
heard, else TIMEOUT; a SYNC_READ slot gets such an error entry and the next slot opens, or the batch completes. Nothing
but a Tick in AWAIT raises the count: every other event keeps it or sets it to 0. -/
def Obligations.TickFollowsItsRule : Prop :=
  ∀ (p : Params) (s : State),
    (∀ e : Event, (s.handle p e).timer = s.timer ∨ (s.handle p e).timer = 0
      ∨ (e = .tick ∧ s.seq = .await ∧ (s.handle p e).timer = s.timer + 1)) ∧
    (s.seq ≠ .await → s.handle p .tick = s)
    ∧ ∀ c t, s.seq = .await → decodeResponse p.scanLimit s.rxfifo = .incomplete → s.cur = some c →
        timeoutOperand c = some t →
        ((s.timer + 1).toNat < t.toNat → s.handle p .tick = { s with timer := s.timer + 1 })
        ∧ (t.toNat ≤ (s.timer + 1).toNat →
          ((∀ addr len ids u, c ≠ .syncRead addr len ids u) →
            s.handle p .tick = postedState s (codeOnly
              (match c with
                | .ping _ _ => .notResponding
                | _ => if s.heard then .timeout else .notResponding)))
          ∧ ∀ addr len ids id, c = .syncRead addr len ids t → ids[s.slot]? = some id →
              let entry : SlotResult :=
                { id := id, code := if s.heard then .timeout else .notResponding, status := none, data := [] }
              (s.slot + 1 = ids.length → s.handle p .tick
                = postedState s { code := .ok, status := none, data := [], slots := s.slots ++ [entry] })
              ∧ (s.slot + 1 ≠ ids.length → s.handle p .tick
                = { s with slots := s.slots ++ [entry], slot := s.slot + 1, timer := 0,
                           heard := decide (s.rxfifo ≠ []) }))

/-- R109, R111, R148: a single-device window in which no byte comes stays open for fewer ticks than its timeout and is
over at the `t`-th tick, or at the first when `t = 0`: PING reports NOT_RESPONDING, any other command NOT_RESPONDING
when nothing was heard and TIMEOUT otherwise; the FIFO's bytes stay. -/
def Obligations.QuietWindowExpiresAtItsTimeout : Prop :=
  ∀ (p : Params) (s : State) (c : Command) (t : Ticks), EngineInv p s → s.seq = .await → s.cur = some c →
    (∀ addr len ids u, c ≠ .syncRead addr len ids u) → timeoutOperand c = some t → s.timer = 0 →
    (∀ k, k < max 1 t.toNat → s.passTicks p k = { s with timer := BitVec.ofNat 32 k })
    ∧ s.passTicks p (max 1 t.toNat)
        = postedState s (codeOnly
            (match c with
              | .ping _ _ => .notResponding
              | _ => if s.heard then .timeout else .notResponding))

/-- R188: a SYNC_READ slot in which no byte comes stays open for fewer ticks than its timeout and ends at the `t`-th tick,
or at the first when `t = 0`, with an error entry; the next slot then opens with the FIFO as it is, or the batch
completes with one entry per device. -/
def Obligations.QuietSlotExpiresAtItsTimeout : Prop :=
  ∀ (p : Params) (s : State) (addr len id : Byte) (ids : List Byte) (t : Ticks), EngineInv p s → s.seq = .await →
    s.cur = some (.syncRead addr len ids t) → ids[s.slot]? = some id → s.timer = 0 →
    let entry : SlotResult :=
      { id := id, code := if s.heard then .timeout else .notResponding, status := none, data := [] }
    (∀ k, k < max 1 t.toNat → s.passTicks p k = { s with timer := BitVec.ofNat 32 k })
    ∧ (s.slot + 1 < ids.length → s.passTicks p (max 1 t.toNat)
        = { s with slots := s.slots ++ [entry], slot := s.slot + 1, timer := 0, heard := decide (s.rxfifo ≠ []) })
    ∧ (s.slot + 1 = ids.length → s.passTicks p (max 1 t.toNat)
        = postedState s { code := .ok, status := none, data := [], slots := s.slots ++ [entry] })

/-! ## Decoding responses -/

/-- R145: when Settle ends, the command has ended or the FIFO needs more bytes. It holds in every state. -/
def Obligations.SettleLeavesNothingToDecode : Prop :=
  ∀ (p : Params) (s : State), (s.settle p.scanLimit).seq = .await →
    decodeResponse p.scanLimit (s.settle p.scanLimit).rxfifo = .incomplete

/-- R146, with R33 and R77: how the first frame of a single-device window ends its command. It must carry the command's ID
and, but for TXN, the command's parameter count: 0 for PING, WRITE, REG_WRITE and ACTION, `len` for READ. The frame's
bytes are consumed and nothing after them. -/
def Obligations.ResolveFollowsItsRule : Prop :=
  ∀ (p : Params) (s : State) (c : Command) (r : FrameResult) (n : Nat), s.seq = .await → s.cur = some c →
    (∀ addr len ids u, c ≠ .syncRead addr len ids u) → decodeResponse p.scanLimit s.rxfifo = .found r n →
    let answer := fun result => s.settle p.scanLimit = { postedState s result with rxfifo := s.rxfifo.drop n }
    (r = .syncNotFound → answer (codeOnly .syncNotFound))
    ∧ (r = .malformed → answer (codeOnly .malformed))
    ∧ (r = .checksumMismatch → answer (codeOnly .checksumMismatch))
    ∧ ∀ id status params awaitedId count, r = .ok id status params → opensWindow c →
        awaitedResponse c = some (awaitedId, count) →
        (id ≠ awaitedId → answer (codeOnly .idMismatch))
        ∧ (id = awaitedId → (∃ m, count = some m ∧ params.length ≠ m) → answer (codeOnly .lengthMismatch))
        ∧ (id = awaitedId → (∀ m, count = some m → params.length = m) →
            answer { code := if status = 0 then .ok else .flags, status := some status,
                     data := match c with
                       | .read _ _ _ _ | .txn _ _ _ _ => params
                       | _ => [],
                     slots := [] })

/-- R187: what ResolveSlot records for a slot and where it goes on. -/
def Obligations.ResolveSlotFollowsItsRule : Prop :=
  ∀ (s : State) (addr len id : Byte) (ids : List Byte) (t : Ticks) (r : FrameResult),
    s.cur = some (.syncRead addr len ids t) → ids[s.slot]? = some id →
    let goesOn := fun (entry : SlotResult) =>
      (s.slot + 1 = ids.length →
        s.resolve r = postedState s { code := .ok, status := none, data := [], slots := s.slots ++ [entry] })
      ∧ (s.slot + 1 ≠ ids.length →
        s.resolve r = { s with slots := s.slots ++ [entry], slot := s.slot + 1, timer := 0,
                               heard := decide (s.rxfifo ≠ []) })
    let failed := fun code => goesOn { id := id, code := code, status := none, data := [] }
    (r = .syncNotFound → failed .syncNotFound)
    ∧ (r = .malformed → failed .malformed)
    ∧ (r = .checksumMismatch → failed .checksumMismatch)
    ∧ ∀ rid status params, r = .ok rid status params →
        (rid ≠ id → failed .idMismatch)
        ∧ (rid = id → params.length ≠ len.toNat → failed .lengthMismatch)
        ∧ (rid = id → params.length = len.toNat →
            goesOn { id := id, code := if status = 0 then .ok else .flags, status := some status, data := params })

/-- A whole single-device transaction: an accepted instruction that awaits a response, its frame taken by the UART, and
then the addressed device's reply, with the parameter count R77 gives the instruction, arriving byte by byte, with fewer
ticks in all than the timeout, at any places: the engine posts the reply's status, and its data for READ and TXN, having
sent exactly the instruction's frame, with the FIFO empty again and no byte lost. -/
def Obligations.AddressedReplyIsDelivered : Prop :=
  ∀ (p : Params) (i : Instr) (s : State) (id : Byte) (count : Option Nat) (t : Ticks) (status : Byte)
    (params : List Byte) (line : List (Option Byte)),
    EngineInv p s → s.seq = .idle → s.conn = .opened → s.rxfifo = [] → NoByteLost s → i.wf = true →
    opensWindow (commandOf i) → awaitedResponse (commandOf i) = some (id, count) →
    timeoutOperand (commandOf i) = some t → (∀ m, count = some m → params.length = m) →
    params.length ≤ 253 → line.reduceOption = Wire.frame ⟨id, status, params⟩ →
    line.count none < max 1 t.toNat →
    ∃ s1, exec i s = .next s1
      ∧ let s2 := (s1.acceptBytes p (encode i).length).receive p line
        s2 = { postedState s
                { code := if status = 0 then .ok else .flags, status := some status,
                  data := match commandOf i with
                    | .read _ _ _ _ | .txn _ _ _ _ => params
                    | _ => [],
                  slots := [] } with
               txlog := s.txlog ++ encode i }
        ∧ NoByteLost s2

/-- A device's reply to a SYNC_READ slot as it comes over the line, with the checksum byte it carries. -/
structure SlotReply where
  status : Byte
  data : List Byte
  chk : Byte

/-- The bytes of a slot's reply (R71, R79). -/
def SlotReply.bytes (id : Byte) (r : SlotReply) : List Byte :=
  [0xFF, 0xFF, id, BitVec.ofNat 8 (r.data.length + 2), r.status] ++ r.data ++ [r.chk]

/-- The entry a slot's reply ends in: its data where the checksum is right, else CHECKSUM_MISMATCH (R191). -/
def SlotReply.entry (id : Byte) (r : SlotReply) : SlotResult :=
  if r.chk = checksum id (BitVec.ofNat 8 (r.data.length + 2)) r.status r.data then
    { id := id, code := if r.status = 0 then .ok else .flags, status := some r.status, data := r.data }
  else { id := id, code := .checksumMismatch, status := none, data := [] }

/-- R191: failure isolation. From the moment a SYNC_READ's window opens with an empty FIFO, every listed device's frame
of the right shape arrives in list order, any of them with a wrong checksum. `lines` cuts what the line brings after
the last byte of each frame; any timing is allowed in which no slot's window expires before its frame is complete.
Then exactly the frames with a wrong checksum are CHECKSUM_MISMATCH entries and every other slot has its own frame's
status and data; one result is posted, with one entry per device in list order. -/
def Obligations.OneCorruptReplyDoesNotSpoilTheOthers : Prop :=
  ∀ (p : Params) (s : State) (addr len : Byte) (ids : List Byte) (t : Ticks) (replies : List SlotReply)
    (lines : List (List (Option Byte))),
    EngineInv p s → s.seq = .await → s.cur = some (.syncRead addr len ids t) → s.slot = 0 → s.rxfifo = [] →
    s.timer = 0 → replies.length = ids.length → (∀ r ∈ replies, r.data.length = len.toNat) →
    lines.map List.reduceOption = List.zipWith SlotReply.bytes ids replies →
    (∀ line ∈ lines, line.getLast? ≠ some none ∧ line.count none < max 1 t.toNat) →
    s.receive p lines.flatten
      = postedState s { code := .ok, status := none, data := [],
                        slots := List.zipWith SlotReply.entry ids replies }

/-- R189: a SYNC_READ ends, other than by a link failure or reset, in one plain OK whose slots are one entry per
requested device in list order, each a data entry with its status and L bytes or an error entry with neither; a link
failure ends it in IO_ERROR with no slots. -/
def Obligations.CompletedSyncReadHasOneEntryPerDevice : Prop :=
  ∀ (p : Params) (s : State) (addr len : Byte) (ids : List Byte) (t : Ticks) (e : Event), EngineInv p s → LogInv s →
    s.seq = .await → s.cur = some (.syncRead addr len ids t) → e.enabled s.seq = true →
    (s.handle p e).seq ≠ .await → e ≠ .reset →
    (e = .linkFail → (s.handle p e).result = some (codeOnly .ioError))
    ∧ (e ≠ .linkFail →
      ∃ slots, (s.handle p e).result = some { code := .ok, status := none, data := [], slots := slots }
        ∧ slots.map SlotResult.id = ids
        ∧ ∀ sr ∈ slots, ((∃ status, sr.status = some status ∧ sr.code = if status = 0 then .ok else .flags)
              ∧ sr.data.length = len.toNat)
            ∨ (isSlotError sr.code = true ∧ sr.status = none ∧ sr.data = []))

/-! ## Broadcast, results and logs -/

/-- R162: a command to the broadcast address, SYNC_READ apart, never has a receive window open: while it is in progress
the engine is SENDING, no event but a link failure or a reset takes a byte off the FIFO, and it ends in a plain OK. -/
def Obligations.BroadcastOpensNoWindow : Prop :=
  ∀ (p : Params) (s : State) (c : Command) (w : Wire) (e : Event), EngineInv p s → s.cur = some c →
    frameOf c = some w → w.id = 0xFE → (∀ addr len ids t, c ≠ .syncRead addr len ids t) → e.enabled s.seq = true →
    e ≠ .linkFail → e ≠ .reset →
    let s' := s.handle p e
    s.seq = .sending ∧ s'.seq ≠ .await ∧ (∃ more, s'.rxfifo = s.rxfifo ++ more)
      ∧ (s'.seq ≠ .sending → s'.result = some (codeOnly .ok) ∧ s'.rxfifo = s.rxfifo)

/-- R24, R35, R205, R208: an event that is no reset posts at most one result. Posting is the only way a command ends, and
it clears every working element. Until then the latched command and the frame being sent stay as they are, and only an
Issue latches a command. An event sends at most one byte, which only TxAccept does; neither log ever loses an
entry. -/
def Obligations.OnlyPostEndsACommand : Prop :=
  ∀ (p : Params) (s : State) (e : Event), e.enabled s.seq = true → e ≠ .reset →
    let s' := s.handle p e
    ((s'.results = s.results ∧ s'.result = s.result ∧ (s.cur ≠ none → s'.cur ≠ none)
        ∧ (s.seq ≠ .idle → s'.cur = s.cur)
        ∧ (s.seq = .idle → s'.cur = s.cur ∨ ∃ c, e = .issue c ∧ s'.cur = some c)
        ∧ (s.seq = .sending → s'.seq = .sending → s'.txbuf = s.txbuf))
      ∨ ∃ r, s'.results = s.results ++ [r] ∧ s'.result = some r ∧ s'.seq = .idle ∧ s'.ready = true ∧ s'.cur = none
          ∧ s'.txbuf = [] ∧ s'.txpos = 0 ∧ s'.timer = 0 ∧ s'.heard = false ∧ s'.slot = 0 ∧ s'.slots = [])
    ∧ (s'.txlog = s.txlog ∨ ∃ b, e = .txAccept ∧ s'.txlog = s.txlog ++ [b] ∧ s.txbuf[s.txpos]? = some b)

/-- R80: the named flags are the bits of the status byte with the masks of the table. -/
def Obligations.StatusFlagsAreTheTableBits : Prop :=
  ∀ status : Byte,
    (hasFlag status .voltage = true ↔ status &&& 0x01 ≠ 0) ∧ (hasFlag status .encoder = true ↔ status &&& 0x02 ≠ 0)
    ∧ (hasFlag status .temperature = true ↔ status &&& 0x04 ≠ 0)
    ∧ (hasFlag status .current = true ↔ status &&& 0x08 ≠ 0)
    ∧ (hasFlag status .overload = true ↔ status &&& 0x20 ≠ 0)

/-! ## Invariants -/

/-- The engine's invariant and the shape of its logs hold right after reset (R38, R42). -/
def Obligations.ResetMeetsTheInvariants : Prop :=
  EngineInv Config.params State.reset ∧ LogInv State.reset

/-- R38: every step keeps the engine's invariant, from every state that meets it. -/
def Obligations.EveryStepKeepsTheEngineInvariant : Prop :=
  ∀ s s' : State, EngineInv Config.params s → step s = .next s' → EngineInv Config.params s'

/-- R34, R88, R90: every step keeps the shape of results and slot results. -/
def Obligations.EveryStepKeepsResultsShaped : Prop :=
  ∀ s s' : State, EngineInv Config.params s → LogInv s → step s = .next s' → LogInv s'
end

