-- ==== Sys2Proof/Laws/State.lean ====
section
/-! SUPPORT. One lemma per field of each named update of State, so that no proof unfolds a record update. -/

namespace Sys2Proof.Machine

variable (s : State) (r : Result)

/-! ## post -/

@[simp] theorem post_conn : (s.post r).conn = s.conn := rfl
@[simp] theorem post_baud : (s.post r).baud = s.baud := rfl
@[simp] theorem post_seq : (s.post r).seq = .idle := rfl
@[simp] theorem post_cur : (s.post r).cur = none := rfl
@[simp] theorem post_txbuf : (s.post r).txbuf = [] := rfl
@[simp] theorem post_txpos : (s.post r).txpos = 0 := rfl
@[simp] theorem post_rxfifo : (s.post r).rxfifo = s.rxfifo := rfl
@[simp] theorem post_rxOverrun : (s.post r).rxOverrun = s.rxOverrun := rfl
@[simp] theorem post_timer : (s.post r).timer = 0 := rfl
@[simp] theorem post_heard : (s.post r).heard = false := rfl
@[simp] theorem post_slot : (s.post r).slot = 0 := rfl
@[simp] theorem post_slots : (s.post r).slots = [] := rfl
@[simp] theorem post_result : (s.post r).result = some r := rfl
@[simp] theorem post_results : (s.post r).results = s.results ++ [r] := rfl
@[simp] theorem post_txlog : (s.post r).txlog = s.txlog := rfl
@[simp] theorem post_inbox : (s.post r).inbox = s.inbox := rfl

/-! ## disconnect -/

@[simp] theorem disconnect_conn : s.disconnect.conn = .closed := rfl
@[simp] theorem disconnect_baud : s.disconnect.baud = none := rfl
@[simp] theorem disconnect_seq : s.disconnect.seq = s.seq := rfl
@[simp] theorem disconnect_cur : s.disconnect.cur = s.cur := rfl
@[simp] theorem disconnect_txbuf : s.disconnect.txbuf = s.txbuf := rfl
@[simp] theorem disconnect_txpos : s.disconnect.txpos = s.txpos := rfl
@[simp] theorem disconnect_rxfifo : s.disconnect.rxfifo = [] := rfl
@[simp] theorem disconnect_rxOverrun : s.disconnect.rxOverrun = s.rxOverrun := rfl
@[simp] theorem disconnect_timer : s.disconnect.timer = s.timer := rfl
@[simp] theorem disconnect_heard : s.disconnect.heard = s.heard := rfl
@[simp] theorem disconnect_slot : s.disconnect.slot = s.slot := rfl
@[simp] theorem disconnect_slots : s.disconnect.slots = s.slots := rfl
@[simp] theorem disconnect_result : s.disconnect.result = s.result := rfl
@[simp] theorem disconnect_results : s.disconnect.results = s.results := rfl
@[simp] theorem disconnect_txlog : s.disconnect.txlog = s.txlog := rfl
@[simp] theorem disconnect_inbox : s.disconnect.inbox = s.inbox := rfl

/-! ## resetEngine -/

@[simp] theorem resetEngine_conn : s.resetEngine.conn = .closed := rfl
@[simp] theorem resetEngine_baud : s.resetEngine.baud = none := rfl
@[simp] theorem resetEngine_seq : s.resetEngine.seq = .idle := rfl
@[simp] theorem resetEngine_cur : s.resetEngine.cur = none := rfl
@[simp] theorem resetEngine_txbuf : s.resetEngine.txbuf = [] := rfl
@[simp] theorem resetEngine_txpos : s.resetEngine.txpos = 0 := rfl
@[simp] theorem resetEngine_rxfifo : s.resetEngine.rxfifo = [] := rfl
@[simp] theorem resetEngine_rxOverrun : s.resetEngine.rxOverrun = false := rfl
@[simp] theorem resetEngine_timer : s.resetEngine.timer = 0 := rfl
@[simp] theorem resetEngine_heard : s.resetEngine.heard = false := rfl
@[simp] theorem resetEngine_slot : s.resetEngine.slot = 0 := rfl
@[simp] theorem resetEngine_slots : s.resetEngine.slots = [] := rfl
@[simp] theorem resetEngine_result : s.resetEngine.result = none := rfl
@[simp] theorem resetEngine_results : s.resetEngine.results = [] := rfl
@[simp] theorem resetEngine_txlog : s.resetEngine.txlog = [] := rfl
@[simp] theorem resetEngine_inbox : s.resetEngine.inbox = s.inbox := rfl

/-! ## withFetchWord -/

variable (nbits w : Nat)

@[simp] theorem withFetchWord_seq : (s.withFetchWord nbits w).seq = .idle := rfl
@[simp] theorem withFetchWord_inbox :
    (s.withFetchWord nbits w).inbox = .issue (tableCommand nbits w) :: s.inbox := rfl

end Sys2Proof.Machine
end

