-- ==== Sys2Proof/Laws/Codec.lean ====
section
/-! SUPPORT. The frame codec: frames and checksums, and what each answer of the response decoder says. -/

namespace Sys2Proof

@[simp] theorem sumBytes_nil : sumBytes [] = 0 := rfl

@[simp] theorem sumBytes_cons (b : Byte) (s : List Byte) : sumBytes (b :: s) = b.toNat + sumBytes s := rfl

@[simp] theorem sumBytes_append (s t : List Byte) : sumBytes (s ++ t) = sumBytes s + sumBytes t := by
  simp [sumBytes]

/-- The checksum completes its sum to 255 modulo 256 (R121's second line). -/
theorem checksum_toNat (id len b4 : Byte) (params : List Byte) :
    (checksum id len b4 params).toNat = 255 - (id.toNat + len.toNat + b4.toNat + sumBytes params) % 256 := by
  simp [checksum]

@[simp] theorem frame_length (w : Wire) : w.frame.length = w.params.length + 6 := by
  simp [Wire.frame]

theorem len_toNat {w : Wire} (h : w.params.length ≤ 253) : w.len.toNat = w.params.length + 2 := by
  simp only [Wire.len, BitVec.toNat_ofNat]
  omega

theorem encodeFrame_eq_some {w : Wire} (h : w.params.length ≤ 253) : encodeFrame w = some w.frame :=
  if_neg (by omega)

theorem encodeFrame_some_iff {w : Wire} {f : List Byte} :
    encodeFrame w = some f ↔ w.params.length ≤ 253 ∧ f = w.frame := by
  by_cases h : w.params.length ≤ 253
  · simp [encodeFrame_eq_some h, h, eq_comm]
  · simp [encodeFrame, Nat.lt_of_not_le h, h]

/-- The decoder reads from a frame what its ID, instruction byte and parameters say, and leaves nothing. -/
theorem decodeInstr_frame {w : Wire} (t : Ticks) (hp : w.params.length ≤ 253) (hid : w.id ≠ 0xFF) :
    decodeInstr t w.frame = (instrOfWire t w).map fun i => (i, []) := by
  have hl := len_toNat hp
  have hlen : w.len.toNat = (w.inst :: (w.params ++ [checksum w.id w.len w.inst w.params])).length := by simp [hl]
  have hbody : decodeBody t w.id w.len (w.inst :: (w.params ++ [checksum w.id w.len w.inst w.params]))
      = instrOfWire t w := by
    simp [decodeBody, hl]
  show decodeInstr t (0xFF :: 0xFF :: w.id :: w.len :: w.inst :: (w.params ++ [_])) = _
  rw [decodeInstr, if_neg (by simp), if_neg hid, if_neg (by omega), if_neg (by omega), hlen, List.take_length,
    List.drop_length, hbody]

/-- The blocks are as many as the bytes they take up say: each entry is its ID and `len` data bytes. -/
theorem splitBlocks_length {len : Nat} :
    ∀ {fuel : Nat} {blocks : List Byte} {es : List Entry}, splitBlocks len fuel blocks = some es →
      blocks.length = es.length * (len + 1)
  | _, [], es, h => by simp only [splitBlocks] at h; cases h; simp
  | 0, _ :: _, _, h => by simp [splitBlocks] at h
  | fuel + 1, id :: rest, es, h => by
    simp only [splitBlocks] at h
    split at h
    · cases h
    · obtain ⟨es', h', rfl⟩ := Option.map_eq_some_iff.1 h
      have := splitBlocks_length h'
      simp only [List.length_drop] at this
      simp only [List.length_cons, Nat.succ_mul]
      omega

@[simp] theorem encode_length (i : Instr) : (encode i).length = i.params.length + 6 := by
  simp [encode, Instr.wire]

end Sys2Proof

namespace Sys2Proof.Machine

/-- Three leading bytes decide a sync at index 0. -/
theorem findSync_zero {a b c : Byte} {rest : List Byte} (h : a = 0xFF ∧ b = 0xFF ∧ c ≠ 0xFF) :
    findSync (a :: b :: c :: rest) = some 0 := by
  simp only [findSync, if_pos h]

theorem findSync_skip {a b c : Byte} {rest : List Byte} (h : ¬(a = 0xFF ∧ b = 0xFF ∧ c ≠ 0xFF)) :
    findSync (a :: b :: c :: rest) = (findSync (b :: c :: rest)).map (· + 1) := by
  simp only [findSync, if_neg h]

/-- A sync is found before the last two bytes. -/
theorem findSync_lt : ∀ {s : List Byte} {i : Nat}, findSync s = some i → i + 2 < s.length
  | [], _, h => by simp [findSync] at h
  | [_], _, h => by simp [findSync] at h
  | [_, _], _, h => by simp [findSync] at h
  | a :: b :: c :: rest, i, h => by
    by_cases hc : a = 0xFF ∧ b = 0xFF ∧ c ≠ 0xFF
    · rw [findSync_zero hc] at h
      cases h
      simp
    · rw [findSync_skip hc] at h
      obtain ⟨j, hj, rfl⟩ := Option.map_eq_some_iff.1 h
      have := findSync_lt hj
      simp only [List.length_cons] at this ⊢
      omega

/-- Everything `decodeAt` can find: a header with LEN below 2, a whole frame with a wrong checksum, or a whole frame
with the right one. -/
theorem decodeAt_cases {i n : Nat} {s : List Byte} {r : FrameResult} (h : decodeAt i s = .found r n) :
    (r = .malformed ∧ n = i + 4 ∧ i + 4 ≤ s.length)
    ∨ ∃ id len b4 tail, s.drop (i + 2) = id :: len :: b4 :: tail ∧ 2 ≤ len.toNat ∧ n = i + 4 + len.toNat
        ∧ len.toNat ≤ tail.length + 1
        ∧ ((r = .checksumMismatch
              ∧ tail[len.toNat - 2]? ≠ some (checksum id len b4 (tail.take (len.toNat - 2))))
          ∨ (r = .ok id b4 (tail.take (len.toNat - 2))
              ∧ tail[len.toNat - 2]? = some (checksum id len b4 (tail.take (len.toNat - 2))))) := by
  unfold decodeAt at h
  split at h
  · rename_i id len rest hd
    have hl := congrArg List.length hd
    simp only [List.length_drop, List.length_cons] at hl
    split at h
    · cases h
      exact .inl ⟨rfl, rfl, by omega⟩
    · rename_i hlen
      split at h
      · cases h
      · rename_i hrest
        cases rest with
        | nil => simp at hrest; omega
        | cons b4 tail =>
          obtain ⟨m, hm⟩ : ∃ m, len.toNat = m + 2 := ⟨len.toNat - 2, by omega⟩
          simp only [List.length_cons] at hrest
          have hmt : m < tail.length := by omega
          have hdrop : (tail.take (m + 1)).drop m = [tail[m]] := by
            rw [List.take_succ_eq_append_getElem hmt, List.drop_append_of_le_length (by simp; omega)]
            simp
          simp only [hm, List.take_succ_cons, Nat.add_sub_cancel, List.take_take, hdrop,
            Nat.min_eq_left (Nat.le_succ m)] at h
          refine .inr ⟨id, len, b4, tail, hd, by omega, ?_⟩
          simp only [hm, Nat.add_sub_cancel, List.getElem?_eq_getElem hmt, Option.some.injEq]
          split at h
          · rename_i hc
            cases h
            simp only [List.cons.injEq, and_true] at hc
            exact ⟨rfl, by omega, .inr ⟨rfl, hc⟩⟩
          · rename_i hc
            cases h
            simp only [List.cons.injEq, and_true] at hc
            exact ⟨rfl, by omega, .inl ⟨rfl, fun h => hc (Option.some.inj h)⟩⟩
  · cases h

/-- Everything a decode that is not Incomplete can be. -/
theorem decodeResponse_cases {scanLimit n : Nat} {s : List Byte} {r : FrameResult}
    (h : decodeResponse scanLimit s = .found r n) :
    (r = .syncNotFound ∧ n = scanLimit ∧ scanLimit + 2 ≤ s.length)
    ∨ ∃ i, findSync s = some i ∧ i < scanLimit ∧ decodeAt i s = .found r n := by
  have hno : ∀ {x : Decoded}, x = .found r n → x = decodeNoSync scanLimit s →
      r = .syncNotFound ∧ n = scanLimit ∧ scanLimit + 2 ≤ s.length := by
    rintro x hx rfl
    unfold decodeNoSync at hx
    split at hx
    · cases hx
      exact ⟨rfl, rfl, by assumption⟩
    · cases hx
  unfold decodeResponse at h
  split at h
  · split at h
    · exact .inr ⟨_, by assumption, by assumption, h⟩
    · exact .inl (hno h rfl)
  · exact .inl (hno h rfl)

end Sys2Proof.Machine
end

