-- ==== Sys2Proof/Laws/Ops.lean ====
section
/-! SUPPORT. What each shared operation can do, said once; proofs cite these and do not unfold the operations. -/

namespace Sys2Proof.Machine

/-! ## Commands and instructions -/

theorem commandOf_of_instrOf {c : Command} {i : Instr} (h : instrOf? c = some i) : commandOf i = c := by
  cases c <;> simp only [instrOf?, reduceCtorEq, Option.some.injEq] at h
  case txn inst id params t =>
    unfold txnInstr? at h
    split at h
    · cases h; simp [commandOf, *]
    · split at h
      · cases h; simp [commandOf, *]
      · split at h
        · cases h; simp [commandOf, *]
        · split at h
          · cases h; simp [commandOf, *]
          · cases h
  all_goals subst h; rfl

/-- Every meaning is the Issue step of the command that emits the instruction. -/
theorem exec_eq (i : Instr) (s : State) : exec i s = .next (s.issue (commandOf i)) := by
  cases i <;> rfl

theorem hasDuplicate_eq_false : ∀ {ids : List Byte}, hasDuplicate ids = false ↔ ids.Nodup
  | [] => by simp [hasDuplicate]
  | id :: ids => by simp [hasDuplicate, hasDuplicate_eq_false (ids := ids)]

/-- A command that passed validation has a frame of at most 253 parameters. -/
theorem frame_of_accepted {c : Command} (h : accepted c = true) :
    ∃ w, frameOf c = some w ∧ w.params.length ≤ 253 := by
  simp only [accepted, Bool.and_eq_true, Bool.not_eq_true', Option.isSome_iff_exists] at h
  obtain ⟨⟨⟨w, hw⟩, hb⟩, hl⟩ := h
  refine ⟨w, hw, ?_⟩
  cases c <;> simp only [frameOf, reduceCtorEq, Option.some.injEq] at hw <;> subst hw <;>
    simp only [paramsTooLarge, badArgument, Bool.or_eq_false_iff, decide_eq_false_iff_not] at hl hb
  case syncWrite addr len entries =>
    have hshape : ∀ e ∈ entries, e.data.length = len.toNat := by
      simpa using hb.2
    have hsum : (entries.map fun e => [e.id] ++ e.data).flatten.length = entries.length * (len.toNat + 1) := by
      clear hb hl
      induction entries with
      | nil => simp
      | cons e es ih =>
        have h1 := hshape e (by simp)
        have h2 := ih fun e' he' => hshape e' (by simp [he'])
        simp only [List.map_cons, List.flatten_cons, List.length_append, List.length_cons, List.length_nil, h1, h2,
          Nat.succ_mul]
        omega
    simp only [List.length_append, List.length_cons, List.length_nil, hsum]
    omega
  all_goals simp
  all_goals omega

/-! ## Issue -/

/-- The Issue step starts the command's frame exactly when validation passes, and else posts one code. -/
theorem issue_cases {s : State} {c : Command} (hs : s.seq = .idle) (hf : (frameOf c).isSome = true) :
    (s.conn = .closed ∧ s.issue c = { s with cur := some c }.post (.only .notOpen))
    ∨ (s.conn = .opened ∧ badArgument c = true ∧ s.issue c = { s with cur := some c }.post (.only .badArgument))
    ∨ (s.conn = .opened ∧ badArgument c = false ∧ paramsTooLarge c = true
        ∧ s.issue c = { s with cur := some c }.post (.only .paramsTooLarge))
    ∨ (s.conn = .opened ∧ accepted c = true ∧ ∃ w, frameOf c = some w ∧ w.params.length ≤ 253
        ∧ s.issue c = { s with cur := some c, txbuf := w.frame, txpos := 0, seq := .sending }) := by
  have hi : s.issue c = { s with cur := some c }.validateAndStart c := if_pos hs
  rw [hi]
  unfold State.validateAndStart
  cases hc : s.conn with
  | closed => exact .inl ⟨rfl, by simp⟩
  | opened =>
    cases hb : badArgument c with
    | true => exact .inr (.inl ⟨rfl, rfl, by simp⟩)
    | false =>
      cases hl : paramsTooLarge c with
      | true => exact .inr (.inr (.inl ⟨rfl, rfl, rfl, by simp⟩))
      | false =>
        have ha : accepted c = true := by simp [accepted, hf, hb, hl]
        obtain ⟨w, hw, hlen⟩ := frame_of_accepted ha
        refine .inr (.inr (.inr ⟨rfl, ha, w, hw, hlen, ?_⟩))
        simp [State.start, hw, encodeFrame_eq_some hlen]

/-- A busy engine takes no command: the host keeps it. -/
theorem issue_busy {s : State} {c : Command} (hs : s.seq ≠ .idle) :
    s.issue c = { s with inbox := .issue c :: s.inbox } := if_neg hs

/-! ## The receive window -/

/-- A resolved frame changes nothing, posts a result, or goes on to the next slot. -/
theorem resolve_cases (s : State) (r : FrameResult) :
    s.resolve r = s
    ∨ (∃ c, s.cur = some c ∧ (∀ addr len ids t, c ≠ .syncRead addr len ids t)
        ∧ s.resolve r = s.post (singleResult c s.slot r))
    ∨ (∃ addr len ids t id, s.cur = some (.syncRead addr len ids t) ∧ ids[s.slot]? = some id
        ∧ s.resolve r = s.nextSlot ids.length (slotResult id len.toNat r)) := by
  unfold State.resolve
  split
  · exact .inl rfl
  · rename_i addr len ids t hc
    split
    · exact .inl rfl
    · exact .inr (.inr ⟨addr, len, ids, t, _, hc, by assumption, rfl⟩)
  · rename_i c hne hc
    exact .inr (.inl ⟨c, hc, hne, rfl⟩)

/-- What holds before Settle's loop and is kept by every pass holds after it. -/
theorem settleLoop_induction {scanLimit : Nat} {P : State → Prop}
    (pass : ∀ s r n, P s → s.seq = .await → decodeResponse scanLimit s.rxfifo = .found r n →
      P ({ s with rxfifo := s.rxfifo.drop n }.resolve r)) :
    ∀ (fuel : Nat) (s : State), P s → P (settleLoop scanLimit fuel s)
  | 0, _, h => h
  | fuel + 1, s, h => by
    unfold settleLoop
    split
    · split
      · exact h
      · exact settleLoop_induction pass fuel _ (pass _ _ _ h (by assumption) (by assumption))
    · exact h

/-- Settle does nothing outside AWAIT. -/
theorem settle_of_not_await {scanLimit : Nat} {s : State} (h : s.seq ≠ .await) :
    s.settle scanLimit = s := by
  unfold State.settle
  cases s.rxfifo.length <;> simp [settleLoop, h]

@[simp] theorem settle_post (scanLimit : Nat) (s : State) (r : Result) : (s.post r).settle scanLimit = s.post r :=
  settle_of_not_await (by simp)

/-- Settle does nothing where the FIFO needs more bytes. -/
theorem settle_of_incomplete {scanLimit : Nat} {s : State}
    (h : decodeResponse scanLimit s.rxfifo = .incomplete) : s.settle scanLimit = s := by
  unfold State.settle
  cases s.rxfifo.length <;> simp [settleLoop, h]

/-- An expired window changes nothing, posts a result, or goes on to the next slot. -/
theorem expire_cases (s : State) :
    s.expire = s
    ∨ (∃ code, (code = .notResponding ∨ code = .timeout) ∧ s.expire = s.post (.only code))
    ∨ (∃ addr len ids t id, s.cur = some (.syncRead addr len ids t) ∧ ids[s.slot]? = some id
        ∧ s.expire = s.nextSlot ids.length (.only id (expiryCode s.heard))) := by
  unfold State.expire
  split
  · exact .inl rfl
  · exact .inr (.inl ⟨_, .inl rfl, rfl⟩)
  · rename_i addr len ids t hc
    split
    · exact .inl rfl
    · exact .inr (.inr ⟨addr, len, ids, t, _, hc, by assumption, rfl⟩)
  · refine .inr (.inl ⟨expiryCode s.heard, ?_, rfl⟩)
    cases s.heard <;> simp [expiryCode]

/-- Sent, with a command in progress: the window opens, or a plain OK is posted. -/
theorem sent_cases {s : State} {c : Command} (hc : s.cur = some c) :
    (awaits c = true ∧ s.sent = { s with txbuf := [], txpos := 0, seq := .await, slot := 0, timer := 0,
                                         heard := !s.rxfifo.isEmpty })
    ∨ (awaits c = false ∧ s.sent = s.post (.only .ok)) := by
  cases h : awaits c <;> simp [State.sent, hc, h]

end Sys2Proof.Machine
end

