-- ==== Sys2Proof/Laws/PerInstr.lean ====
section
/-! SUPPORT. Facts stated once per instruction. -/

namespace Sys2Proof.Laws

open Sys2Proof.Machine

/-- Every instruction is emitted by the one command R74's table names, whose frame is the instruction's encoding
(R157: "every instruction has exactly one command that emits it"). -/
def EmittedBy.Statement (i : Instr) : Prop :=
  instrOf? (commandOf i) = some i ∧ (∀ c, instrOf? c = some i → c = commandOf i)
    ∧ frameOf (commandOf i) = some i.wire

theorem EmittedBy.only (i : Instr) (c : Command) (h : instrOf? c = some i) : c = commandOf i :=
  (commandOf_of_instrOf h).symm

theorem EmittedBy.ping (id : Byte) (t : Ticks) : EmittedBy.Statement (.ping id t) :=
  ⟨rfl, EmittedBy.only _, rfl⟩

theorem EmittedBy.read (id addr len : Byte) (t : Ticks) : EmittedBy.Statement (.read id addr len t) :=
  ⟨rfl, EmittedBy.only _, rfl⟩

theorem EmittedBy.write (id addr : Byte) (data : List Byte) (t : Ticks) :
    EmittedBy.Statement (.write id addr data t) :=
  ⟨rfl, EmittedBy.only _, rfl⟩

theorem EmittedBy.regWrite (id addr : Byte) (data : List Byte) (t : Ticks) :
    EmittedBy.Statement (.regWrite id addr data t) :=
  ⟨rfl, EmittedBy.only _, rfl⟩

theorem EmittedBy.action (id : Byte) (t : Ticks) : EmittedBy.Statement (.action id t) :=
  ⟨rfl, EmittedBy.only _, rfl⟩

theorem EmittedBy.restoreParams (id : Byte) (params : List Byte) (t : Ticks) :
    EmittedBy.Statement (.restoreParams id params t) :=
  ⟨rfl, EmittedBy.only _, rfl⟩

theorem EmittedBy.reboot (id : Byte) : EmittedBy.Statement (.reboot id) :=
  ⟨rfl, EmittedBy.only _, rfl⟩

theorem EmittedBy.backupParams (id : Byte) (params : List Byte) (t : Ticks) :
    EmittedBy.Statement (.backupParams id params t) :=
  ⟨rfl, EmittedBy.only _, rfl⟩

theorem EmittedBy.reset (id : Byte) (params : List Byte) (t : Ticks) : EmittedBy.Statement (.reset id params t) :=
  ⟨rfl, EmittedBy.only _, rfl⟩

theorem EmittedBy.positionCalibrate (id : Byte) (params : List Byte) (t : Ticks) :
    EmittedBy.Statement (.positionCalibrate id params t) :=
  ⟨rfl, EmittedBy.only _, rfl⟩

theorem EmittedBy.syncRead (addr len : Byte) (ids : List Byte) (t : Ticks) :
    EmittedBy.Statement (.syncRead addr len ids t) :=
  ⟨rfl, EmittedBy.only _, rfl⟩

theorem EmittedBy.syncWrite (addr len : Byte) (entries : List Entry) :
    EmittedBy.Statement (.syncWrite addr len entries) :=
  ⟨rfl, EmittedBy.only _, by simp [frameOf, commandOf, Instr.wire, Instr.frameId, Instr.opcode, Instr.params,
    Opcode.code, broadcastId, entryBlocks, List.flatMap]⟩

end Sys2Proof.Laws
end

