-- ==== Sys2Proof/Laws/Step.lean ====
section
/-! SUPPORT. What one step does: the event it takes and the handling of that event. -/

namespace Sys2Proof.Machine

/-- Carrying out an event always answers the state `handle` gives: no event faults and none is refused. -/
theorem perform_eq_handle (p : Params) (e : Event) (s : State) : perform p e s = .next (s.handle p e) := by
  cases e with
  | issue c =>
    cases hi : instrOf? c with
    | none => simp [perform, hi]
    | some i =>
      have hc := commandOf_of_instrOf hi
      simp only [perform, hi, exec_eq, hc, State.handle]
      cases c <;> first | rfl | simp [instrOf?] at hi
  | _ => rfl

/-- An instruction whose parameter bytes are too many for a frame is the instruction of a command that R142 refuses. -/
theorem instrOf_too_large {t : Ticks} {id : Byte} {params : List Byte} {o : Opcode} {i : Instr}
    (h : instrOf t id params o = .ok i) (hp : params.length > 253) : paramsTooLarge (commandOf i) = true := by
  cases o <;> simp only [instrOf] at h
  case syncWrite =>
    split at h
    · split at h
      · split at h
        · rename_i hb
          have := splitBlocks_length hb
          cases h
          simp only [List.length_cons] at hp
          simp only [commandOf, paramsTooLarge, decide_eq_true_eq]
          omega
        · cases h
      · cases h
    · cases h
  all_goals
    repeat' split at h
    all_goals first
      | (cases h; simp_all [commandOf, paramsTooLarge] <;> omega)
      | cases h

/-- Parameter bytes of TXN's four codes have every layout, so none of the four is a code of the wrong shape. -/
theorem not_txn_of_instrOf_error {t : Ticks} {id : Byte} {params : List Byte} {o : Opcode} {e : DecodeError}
    (h : instrOf t id params o = .error e) : ([0x06, 0x09, 0x0A, 0x0B] : List Byte).contains o.code = false := by
  cases o <;> first | rfl | cases h

/-- Assumption 9: validation refuses what a table word that is no instruction stands for, so no such word is sent. -/
theorem tableCommand_refused {nbits w : Nat} (h : decodeTableWord nbits w = none) :
    badArgument (tableCommand nbits w) = true ∨ paramsTooLarge (tableCommand nbits w) = true := by
  cases ho : opcodeOf? (tableByte w 0) with
  | none =>
    have hc : tableCommand nbits w = .txn (tableByte w 0) 0 [] 0 := by simp [tableCommand, h, tableWire, ho]
    have hn : ([0x06, 0x09, 0x0A, 0x0B] : List Byte).contains (tableByte w 0) = false := by
      by_contra hcon
      simp only [Bool.not_eq_false, List.contains_iff_mem, List.mem_cons, List.not_mem_nil, or_false] at hcon
      rcases hcon with hb | hb | hb | hb <;> rw [hb] at ho <;> exact absurd ho (by decide)
    rw [hc]
    exact .inl (by simp only [badArgument, hn, Bool.not_false, Bool.true_or])
  | some o =>
    obtain ⟨wire, hw, hinst, hid⟩ : ∃ wire, tableWire nbits w = some wire ∧ wire.inst = o.code ∧ wire.id ≠ 0xFF := by
      refine ⟨_, by rw [tableWire, ho]; rfl, rfl, ?_⟩
      dsimp only
      split <;> decide
    have hw0 : instrOfWire 0 wire = instrOf 0 wire.id wire.params o := by
      rw [instrOfWire, hinst]
      cases o <;> rfl
    have hcode : o.code = tableByte w 0 := by simpa using List.find?_some ho
    cases hi : instrOfWire 0 wire with
    | error e =>
      have hc : tableCommand nbits w = .txn (tableByte w 0) 0 [] 0 := by
        simp only [tableCommand, h, hw, Option.map_some, hi]
      rw [hc]
      rw [hw0] at hi
      refine .inl ?_
      simp only [badArgument, ← hcode, not_txn_of_instrOf_error hi, Bool.not_false, Bool.true_or]
    | ok i =>
      have hc : tableCommand nbits w = commandOf i := by
        simp only [tableCommand, h, hw, Option.map_some, hi]
      rw [hc]
      refine .inr ?_
      by_cases hp : wire.params.length ≤ 253
      · have hd := decodeInstr_frame 0 hp hid
        simp only [decodeTableWord, tableFrame, hw, Option.bind_some, encodeFrame_eq_some hp, hd, hi, Except.map,
          reduceCtorEq] at h
      · exact instrOf_too_large (hw0 ▸ hi) (by omega)

/-- The event a step takes is enabled, and only events that are not enabled are passed over. -/
theorem takeEnabled_eq_some {seq : Seq} {es rest : List Event} {e : Event}
    (h : takeEnabled seq es = some (e, rest)) :
    e.enabled seq = true ∧ ∃ waiting later, (∀ w ∈ waiting, w.enabled seq = false)
      ∧ es = waiting ++ e :: later ∧ rest = waiting ++ later := by
  induction es generalizing rest with
  | nil => cases h
  | cons x xs ih =>
    unfold takeEnabled at h
    split at h
    · cases h
      exact ⟨by assumption, [], xs, by simp, rfl, rfl⟩
    · rename_i hx
      obtain ⟨⟨e', es'⟩, h', heq⟩ := Option.map_eq_some_iff.1 h
      cases heq
      obtain ⟨he, waiting, later, hw, rfl, rfl⟩ := ih h'
      refine ⟨he, x :: waiting, later, ?_, rfl, rfl⟩
      intro w hm
      rcases List.mem_cons.1 hm with rfl | hm
      · simpa using hx
      · exact hw w hm

/-- Every step either waits, with no enabled event, or handles one. -/
theorem stepIn_cases {p : Params} {s s' : State} (h : stepIn p s = .next s') :
    (takeEnabled s.seq s.inbox = none ∧ s' = s)
    ∨ ∃ e rest, takeEnabled s.seq s.inbox = some (e, rest) ∧ s' = { s with inbox := rest }.handle p e := by
  unfold stepIn at h
  split at h
  · cases h
    exact .inl ⟨by assumption, rfl⟩
  · rename_i e rest he
    rw [perform_eq_handle] at h
    cases h
    exact .inr ⟨e, rest, he, rfl⟩

theorem step_cases {s s' : State} (h : step s = .next s') :
    (takeEnabled s.seq s.inbox = none ∧ s' = s)
    ∨ ∃ e rest, takeEnabled s.seq s.inbox = some (e, rest)
        ∧ s' = { s with inbox := rest }.handle Config.params e :=
  stepIn_cases h

end Sys2Proof.Machine
end

