-- ==== Sys2Proof/Tests/Slice0.lean ====
section
/-! SUPPORT. Tests and witnesses. Expected values come from 95_test_vectors.md (the vector's name stands in the comment)
or from the rule cited there; the open parameters are those of that file: SCAN_LIMIT 16 and RX_FIFO_DEPTH 1024. -/

namespace Sys2Proof.Tests

open Sys2Proof.Machine

/-- The parameters of 95_test_vectors.md. -/
def params : Params where
  scanLimit := 16
  rxFifoDepth := 1024
  supportsBaud b := b == 9600 || b == 115200 || b == 1000000
  tickPeriod := 1
  scanLimit_pos := by decide
  rxFifoDepth_ge := by decide
  supportsBaud_pos := rfl
  tickPeriod_pos := by decide

/-- The state after Reset and OPEN baud=1000000, with an empty result log. -/
def ready : State := { State.reset with conn := .opened, baud := some 1000000 }

/-- A command whose frame is about to be sent. -/
def sending (c : Command) (frame : List Byte) : State :=
  { ready with seq := .sending, cur := some c, txbuf := frame }

/-- All bytes of a command's frame but the last are sent. -/
def lastByte (c : Command) (frame : List Byte) : State :=
  { ready with seq := .sending, cur := some c, txbuf := frame, txpos := frame.length - 1,
               txlog := frame.take (frame.length - 1) }

/-- A command's receive window, with bytes already in the FIFO. -/
def window (c : Command) (rx : List Byte) : State :=
  { ready with seq := .await, cur := some c, rxfifo := rx, heard := !rx.isEmpty }

/-- The next state of an outcome, if it is one. -/
def next? : Host.Outcome State Fault Refusal → Option State
  | .next s => some s
  | .fault _ => none
  | .refused _ => none

/-- The frame an instruction starts to send in the ready state. -/
def frameSent (i : Instr) : Option (List Byte) := (next? (exec i ready)).map State.txbuf

/-- The code an instruction is refused with in the ready state. -/
def refusal (i : Instr) : Option ResultCode := (next? (exec i ready)).bind fun s => s.result.map Result.code

/-- What arrives last in a window decides its result. -/
def answer (c : Command) (rx : List Byte) (b : Byte) : Option Result :=
  ((window c rx).handle params (.rxByte b)).result

def ok : Result := ⟨.ok, some 0, [], []⟩

/-! ## WellFormed refuses each ill-formed term -/

theorem test_wf_ping_broadcast : (Instr.ping 0xFE 0).wf = false := by decide
theorem test_wf_read_len_zero : (Instr.read 1 0x38 0 0).wf = false := by decide
theorem test_wf_read_len_254 : (Instr.read 1 0x38 254 0).wf = false := by decide
theorem test_wf_read_len_253 : (Instr.read 253 0x38 253 0).wf = true := by decide
theorem test_wf_write_id_255 : (Instr.write 0xFF 0 [1] 0).wf = false := by decide
theorem test_wf_write_no_data : (Instr.write 1 0 [] 0).wf = false := by decide
theorem test_wf_write_253_bytes : (Instr.write 1 0 (List.replicate 253 0) 0).wf = false := by decide +kernel
theorem test_wf_regWrite_no_data : (Instr.regWrite 1 0 [] 0).wf = false := by decide
theorem test_wf_action_id_255 : (Instr.action 0xFF 0).wf = false := by decide
theorem test_wf_reboot_id_255 : (Instr.reboot 0xFF).wf = false := by decide
theorem test_wf_restoreParams_254_bytes : (Instr.restoreParams 1 (List.replicate 254 0) 0).wf = false := by decide +kernel
theorem test_wf_backupParams_id_255 : (Instr.backupParams 0xFF [] 0).wf = false := by decide
theorem test_wf_reset_id_255 : (Instr.reset 0xFF [] 0).wf = false := by decide
theorem test_wf_positionCalibrate_id_255 : (Instr.positionCalibrate 0xFF [] 0).wf = false := by decide
theorem test_wf_syncRead_no_devices : (Instr.syncRead 0 1 [] 0).wf = false := by decide
theorem test_wf_syncRead_twice : (Instr.syncRead 0 1 [1, 1] 0).wf = false := by decide
theorem test_wf_syncRead_broadcast_slot : (Instr.syncRead 0 1 [0xFE] 0).wf = false := by decide
theorem test_wf_syncRead_len_zero : (Instr.syncRead 0 0 [1] 0).wf = false := by decide
theorem test_wf_syncWrite_len_zero : (Instr.syncWrite 0 0 [⟨1, []⟩]).wf = false := by decide
theorem test_wf_syncWrite_uneven : (Instr.syncWrite 0 2 [⟨1, [0, 0]⟩, ⟨2, [0]⟩]).wf = false := by decide
theorem test_wf_syncWrite_twice : (Instr.syncWrite 0 1 [⟨1, [0]⟩, ⟨1, [0]⟩]).wf = false := by decide
theorem test_wf_syncWrite_too_large : (Instr.syncWrite 0 251 [⟨1, List.replicate 251 0⟩]).wf = false := by decide +kernel
theorem test_wf_open_zero_baud : (Command.openPort 0 true).wf = false := by decide

/-! ## The encoder and the decoder of instruction frames (V1, V3, V5, V6, S27 to S38, G1) -/

theorem test_encode_ping : encode (.ping 1 0) = [0xFF, 0xFF, 0x01, 0x02, 0x01, 0xFB] := by decide
theorem test_decode_ping :
    decodeInstr 7 [0xFF, 0xFF, 0x01, 0x02, 0x01, 0xFB, 0xAA] = .ok (.ping 1 7, [0xAA]) := by rfl
theorem test_encode_read : encode (.read 1 0x38 2 0) = [0xFF, 0xFF, 0x01, 0x04, 0x02, 0x38, 0x02, 0xBE] := by decide
theorem test_decode_read :
    decodeInstr 0 [0xFF, 0xFF, 0x01, 0x04, 0x02, 0x38, 0x02, 0xBE] = .ok (.read 1 0x38 2 0, []) := by rfl
theorem test_decode_write :
    decodeInstr 0 [0xFF, 0xFF, 0x01, 0x09, 0x03, 0x2A, 0x00, 0x08, 0x00, 0x00, 0xE8, 0x03, 0xD5]
      = .ok (.write 1 0x2A [0x00, 0x08, 0x00, 0x00, 0xE8, 0x03] 0, []) := by rfl
theorem test_decode_regWrite :
    decodeInstr 0 [0xFF, 0xFF, 0x01, 0x05, 0x04, 0x2A, 0x00, 0x08, 0xC3] = .ok (.regWrite 1 0x2A [0x00, 0x08] 0, []) := by
  rfl
theorem test_decode_action : decodeInstr 0 [0xFF, 0xFF, 0xFE, 0x02, 0x05, 0xFA] = .ok (.action 0xFE 0, []) := by rfl
theorem test_decode_restoreParams :
    decodeInstr 0 [0xFF, 0xFF, 0x01, 0x02, 0x06, 0xF6] = .ok (.restoreParams 1 [] 0, []) := by rfl
theorem test_decode_reboot : decodeInstr 0 [0xFF, 0xFF, 0x01, 0x02, 0x08, 0xF4] = .ok (.reboot 1, []) := by rfl
theorem test_decode_backupParams :
    decodeInstr 0 [0xFF, 0xFF, 0x01, 0x02, 0x09, 0xF3] = .ok (.backupParams 1 [] 0, []) := by rfl
theorem test_decode_reset : decodeInstr 0 [0xFF, 0xFF, 0x01, 0x02, 0x0A, 0xF2] = .ok (.reset 1 [] 0, []) := by rfl
theorem test_decode_positionCalibrate :
    decodeInstr 0 [0xFF, 0xFF, 0x01, 0x03, 0x0B, 0x01, 0xEF] = .ok (.positionCalibrate 1 [1] 0, []) := by rfl
theorem test_decode_syncRead :
    decodeInstr 0 [0xFF, 0xFF, 0xFE, 0x07, 0x82, 0x38, 0x02, 0x03, 0x01, 0x02, 0x38]
      = .ok (.syncRead 0x38 2 [3, 1, 2] 0, []) := by rfl
theorem test_decode_syncWrite :
    decodeInstr 0 [0xFF, 0xFF, 0xFE, 0x0A, 0x83, 0x2A, 0x02, 0x01, 0x00, 0x08, 0x02, 0x00, 0x04, 0x39]
      = .ok (.syncWrite 0x2A 2 [⟨1, [0x00, 0x08]⟩, ⟨2, [0x00, 0x04]⟩], []) := by rfl

/-- V6: the LEN byte and the checksum of FSDK's four-device frame. -/
theorem test_encode_syncWrite :
    let frame := encode (.syncWrite 0x2A 6 ([1, 2, 3, 4].map fun id => ⟨id, [0x00, 0x08, 0x00, 0x00, 0xE8, 0x03]⟩))
    frame.length = 36 ∧ frame[3]? = some 0x20 ∧ frame[35]? = some 0x58 := by decide

/-- One byte sequence for each reason to refuse. -/
theorem test_decode_refusals :
    decodeInstr 0 [0xFF, 0xFF, 0x01] = .error .truncated
    ∧ decodeInstr 0 [0xFF, 0xFF, 0x01, 0x02, 0x01] = .error .truncated
    ∧ decodeInstr 0 [0xFF, 0xFE, 0x01, 0x02, 0x01, 0xFB] = .error .noSync
    ∧ decodeInstr 0 [0xFF, 0xFF, 0xFF, 0x02, 0x01, 0xFD] = .error .reservedId
    ∧ decodeInstr 0 [0xFF, 0xFF, 0x01, 0x01, 0xFD] = .error .malformedLength
    ∧ decodeInstr 0 [0xFF, 0xFF, 0x01, 0x02, 0x01, 0xFC] = .error .checksumMismatch
    ∧ decodeInstr 0 [0xFF, 0xFF, 0x01, 0x02, 0x07, 0xF5] = .error .unassignedCode
    ∧ decodeInstr 0 [0xFF, 0xFF, 0x01, 0x03, 0x01, 0x00, 0xFA] = .error .wrongShape
    ∧ decodeInstr 0 [0xFF, 0xFF, 0x01, 0x05, 0x82, 0x38, 0x02, 0x03, 0x3A] = .error .notBroadcast :=
  ⟨rfl, rfl, rfl, rfl, rfl, rfl, rfl, rfl, rfl⟩

/-- Each row's code alone selects the row. -/
theorem test_table_codes :
    decodeTableWord 8 0x01 = some (.ping 0 0) ∧ decodeTableWord 8 0x02 = some (.read 0 0 0 0)
    ∧ decodeTableWord 8 0x03 = some (.write 0 0 [0] 0) ∧ decodeTableWord 8 0x04 = some (.regWrite 0 0 [0] 0)
    ∧ decodeTableWord 8 0x05 = some (.action 0 0) ∧ decodeTableWord 8 0x06 = some (.restoreParams 0 [] 0)
    ∧ decodeTableWord 8 0x08 = some (.reboot 0) ∧ decodeTableWord 8 0x09 = some (.backupParams 0 [] 0)
    ∧ decodeTableWord 8 0x0A = some (.reset 0 [] 0) ∧ decodeTableWord 8 0x0B = some (.positionCalibrate 0 [] 0)
    ∧ decodeTableWord 8 0x82 = some (.syncRead 0 0 [0] 0) ∧ decodeTableWord 8 0x83 = some (.syncWrite 0 0 [⟨0, []⟩])
    ∧ decodeTableWord 8 0x07 = none := by decide

/-- A word that holds READ's operand bytes gives them to the instruction. -/
theorem test_table_read : decodeTableWord 24 0x023802 = some (.read 0 0x38 2 0) := by decide

/-- Right after reset there is no connection, so the placed instruction answers NOT_OPEN (R102). -/
theorem test_fetch_word_after_reset :
    (next? (step (State.reset.withFetchWord 8 0x01))).bind State.result = some (codeOnly .notOpen) := by rfl

/-- R84 and C6 on a table word of one parameter byte too many: it has no frame and is no instruction, and the command
it stands for (the model's choice, assumption 9) is refused with nothing sent. -/
theorem test_table_too_long :
    decodeTableWord (8 * 254) 0x06 = some (.restoreParams 0 (List.replicate 253 0) 0)
    ∧ decodeTableWord (8 * 255) 0x06 = none
    ∧ (next? (step (ready.withFetchWord (8 * 255) 0x06))).map (fun s => (s.seq, s.result, s.txlog))
        = some (.idle, some (codeOnly .paramsTooLarge), []) := by decide +kernel

/-- A word of an unassigned code stands for a TXN that R142 refuses (assumption 9). -/
theorem test_table_unassigned :
    (next? (step (ready.withFetchWord 8 0x07))).bind State.result = some (codeOnly .badArgument) := by rfl

/-! ## The checksum and the response decoder -/

/-- C1, C2. -/
theorem test_checksum_corners : checksum 0xFE 0x02 0x00 [] = 0xFF ∧ checksum 0xFD 0x02 0x00 [] = 0x00 := by decide

/-- C3. -/
theorem test_checksum_carries : checksum 0xFD 0x0C 0x03 (List.replicate 10 0xFF) = 0xFD := by decide

/-- C6. -/
theorem test_encode_too_large : encodeFrame ⟨1, 0x03, List.replicate 254 0⟩ = none := by decide +kernel

/-- V4 and C7, C8, C9: leading bytes are consumed with the frame. -/
theorem test_decode_ok :
    decodeResponse 16 [0xFF, 0xFF, 0x01, 0x04, 0x00, 0x18, 0x05, 0xDD] = .found (.ok 0x01 0x00 [0x18, 0x05]) 8
    ∧ decodeResponse 16 [0x00, 0x12, 0xFF, 0xFF, 0x01, 0x02, 0x00, 0xFC] = .found (.ok 0x01 0x00 []) 8
    ∧ decodeResponse 16 [0xFF, 0xFF, 0xFF, 0x01, 0x02, 0x00, 0xFC] = .found (.ok 0x01 0x00 []) 7
    ∧ decodeResponse 16 [0xFF, 0xFF, 0xFF, 0xFF, 0xFE, 0x02, 0x00, 0xFF] = .found (.ok 0xFE 0x00 []) 8 := by decide

/-- C10, C12. -/
theorem test_decode_incomplete :
    decodeResponse 16 [0xFF, 0xFF] = .incomplete ∧ decodeResponse 16 [0xFF, 0xFF, 0x01] = .incomplete
    ∧ decodeResponse 16 [0xFF, 0xFF, 0x01, 0x04, 0x00, 0x18, 0x05] = .incomplete := by decide

/-- C11, C13. -/
theorem test_decode_bad_frames :
    decodeResponse 16 [0xFF, 0xFF, 0x01, 0x00, 0xAA] = .found .malformed 4
    ∧ decodeResponse 16 [0xFF, 0xFF, 0x01, 0x01, 0xAA, 0xBB] = .found .malformed 4
    ∧ decodeResponse 16 [0xFF, 0xFF, 0x01, 0x04, 0x00, 0x18, 0x05, 0xDC] = .found .checksumMismatch 8 := by decide

/-- C14 to C17, with SCAN_LIMIT = 4. -/
theorem test_decode_scan_limit :
    decodeResponse 4 [1, 2, 3, 4, 5, 6] = .found .syncNotFound 4 ∧ decodeResponse 4 [1, 2, 3, 4, 5] = .incomplete
    ∧ decodeResponse 4 [0, 0, 0, 0xFF, 0xFF, 0x01, 0x02, 0x00, 0xFC] = .found (.ok 0x01 0x00 []) 9
    ∧ decodeResponse 4 [0, 0, 0, 0, 0xFF, 0xFF, 0x01, 0x02, 0x00, 0xFC] = .found .syncNotFound 4 := by decide

/-- C21: a stale partial frame before a whole one. -/
theorem test_decode_stale_partial :
    decodeResponse 16 [0xFF, 0xFF, 0x01, 0x04, 0x00, 0x18, 0xFF, 0xFF, 0x01, 0x04, 0x00, 0x18, 0x05, 0xDD]
      = .found .checksumMismatch 8 := by decide

/-- V4: how the host reads the two data bytes. -/
theorem test_le16 : le16 0x18 0x05 = 1304 := by decide

/-- C19: status 0x20 is OVERLOAD, and nothing else. -/
theorem test_status_flags : statusFlags 0x20 = [.overload] ∧ statusFlags 0x03 = [.voltage, .encoder] := by decide

/-! ## Instructions: what each sends and how its answer ends it -/

/-- S1. -/
theorem test_ping_sends : frameSent (.ping 1 10) = some [0xFF, 0xFF, 0x01, 0x02, 0x01, 0xFB] := by decide
/-- S2. -/
theorem test_ping_flags :
    answer (.ping 1 10) [0xFF, 0xFF, 0x01, 0x02, 0x20] 0xDC = some ⟨.flags, some 0x20, [], []⟩ := by decide
/-- S10. -/
theorem test_read_sends :
    frameSent (.read 1 0x38 2 10) = some [0xFF, 0xFF, 0x01, 0x04, 0x02, 0x38, 0x02, 0xBE] := by decide
/-- S11: a non-zero status does not hide the data. -/
theorem test_read_flags_and_data :
    answer (.read 1 0x38 2 10) [0xFF, 0xFF, 0x01, 0x04, 0x20, 0x18, 0x05] 0xBD
      = some ⟨.flags, some 0x20, [0x18, 0x05], []⟩ := by decide
/-- S22: broadcast. -/
theorem test_write_broadcast_sends :
    frameSent (.write 0xFE 0x2A [0x00, 0x08, 0x00, 0x00, 0xE8, 0x03] 10)
      = some [0xFF, 0xFF, 0xFE, 0x09, 0x03, 0x2A, 0x00, 0x08, 0x00, 0x00, 0xE8, 0x03, 0xD8] := by decide
/-- S22: OK at Sent, with no status. -/
theorem test_write_broadcast_ok :
    ((lastByte (.write 0xFE 0x2A [1] 10) [0xFF, 0xFF, 0xFE, 0x04, 0x03, 0x2A, 0x01, 0xCF]).handle params .txAccept).result
      = some (codeOnly .ok) := by decide
/-- S27. -/
theorem test_regWrite_sends :
    frameSent (.regWrite 1 0x2A [0x00, 0x08] 10) = some [0xFF, 0xFF, 0x01, 0x05, 0x04, 0x2A, 0x00, 0x08, 0xC3] := by
  decide
theorem test_regWrite_answer :
    answer (.regWrite 1 0x2A [0x00, 0x08] 10) [0xFF, 0xFF, 0x01, 0x02, 0x00] 0xFC = some ok := by decide
/-- S29. -/
theorem test_action_sends : frameSent (.action 0xFE 10) = some [0xFF, 0xFF, 0xFE, 0x02, 0x05, 0xFA] := by decide
/-- S30. -/
theorem test_action_answer : answer (.action 1 10) [0xFF, 0xFF, 0x01, 0x02, 0x00] 0xFC = some ok := by decide
/-- S31. -/
theorem test_reboot_sends : frameSent (.reboot 1) = some [0xFF, 0xFF, 0x01, 0x02, 0x08, 0xF4] := by decide
/-- S31: no window, for a unicast ID too. -/
theorem test_reboot_ok :
    ((lastByte (.reboot 1) [0xFF, 0xFF, 0x01, 0x02, 0x08, 0xF4]).handle params .txAccept).result
      = some (codeOnly .ok) := by decide
/-- S35. -/
theorem test_restoreParams_sends : frameSent (.restoreParams 1 [] 10) = some [0xFF, 0xFF, 0x01, 0x02, 0x06, 0xF6] := by
  decide
/-- S35: a TXN takes any parameter count and returns the bytes. -/
theorem test_restoreParams_answer :
    answer (.txn 0x06 1 [] 10) [0xFF, 0xFF, 0x01, 0x03, 0x00, 0xAB] 0x50 = some ⟨.ok, some 0, [0xAB], []⟩ := by decide
/-- S36. -/
theorem test_backupParams_sends : frameSent (.backupParams 1 [] 10) = some [0xFF, 0xFF, 0x01, 0x02, 0x09, 0xF3] := by
  decide
/-- S34. -/
theorem test_reset_sends : frameSent (.reset 1 [] 10) = some [0xFF, 0xFF, 0x01, 0x02, 0x0A, 0xF2] := by decide
/-- S38. -/
theorem test_positionCalibrate_sends :
    frameSent (.positionCalibrate 1 [1] 10) = some [0xFF, 0xFF, 0x01, 0x03, 0x0B, 0x01, 0xEF] := by decide
/-- S41. -/
theorem test_positionCalibrate_too_large :
    refusal (.positionCalibrate 1 (List.replicate 254 0) 10) = some .paramsTooLarge := by decide +kernel
/-- V7. -/
theorem test_syncRead_sends :
    frameSent (.syncRead 0x38 2 [3, 1, 2] 10)
      = some [0xFF, 0xFF, 0xFE, 0x07, 0x82, 0x38, 0x02, 0x03, 0x01, 0x02, 0x38] := by decide
/-- G1. -/
theorem test_syncWrite_sends :
    frameSent (.syncWrite 0x2A 2 [⟨1, [0x00, 0x08]⟩, ⟨2, [0x00, 0x04]⟩])
      = some [0xFF, 0xFF, 0xFE, 0x0A, 0x83, 0x2A, 0x02, 0x01, 0x00, 0x08, 0x02, 0x00, 0x04, 0x39] := by decide

/-- S5, S6, S7, S12: how a frame that is not the awaited one ends its command. -/
theorem test_frame_errors :
    answer (.ping 1 10) [0xFF, 0xFF, 0x01, 0x02, 0x00] 0xFD = some (codeOnly .checksumMismatch)
    ∧ answer (.ping 1 10) [0xFF, 0xFF, 0x02, 0x02, 0x00] 0xFB = some (codeOnly .idMismatch)
    ∧ answer (.ping 1 10) [0xFF, 0xFF, 0x01, 0x03, 0x00, 0x10] 0xEB = some (codeOnly .lengthMismatch)
    ∧ answer (.read 1 0x38 2 10) [0xFF, 0xFF, 0x01, 0x03, 0x00, 0x18] 0xE3 = some (codeOnly .lengthMismatch)
    ∧ answer (.ping 1 10) [0xFF, 0xFF, 0x01] 0x01 = some (codeOnly .malformed) := by decide

/-- S8, S17, S23, S25, S33, S40, G2, G15. -/
theorem test_refusals :
    refusal (.ping 0xFE 10) = some .badArgument ∧ refusal (.read 1 0x38 0 10) = some .badArgument
    ∧ refusal (.write 1 0x2A [] 10) = some .badArgument
    ∧ refusal (.write 1 0 (List.replicate 253 0) 10) = some .paramsTooLarge
    ∧ refusal (.reboot 0xFF) = some .badArgument ∧ refusal (.syncWrite 0 0 [⟨1, []⟩]) = some .badArgument
    ∧ refusal (.syncRead 0 254 [1] 10) = some .badArgument
    ∧ ((ready.handle params (.issue (.txn 0x02 1 [] 10))).result.map Result.code) = some .badArgument := by decide +kernel

/-- G4, G16: the largest group frames are accepted and one device more is too large. -/
theorem test_group_limits :
    refusal (.syncWrite 0 251 [⟨1, List.replicate 251 0⟩]) = some .paramsTooLarge
    ∧ (frameSent (.syncWrite 0 250 [⟨1, List.replicate 250 0⟩])).map List.length = some 259 := by decide +kernel

/-- G6, one slot: the corrupt frame is consumed, its slot gets the error, and the next slot opens. -/
theorem test_slot_checksum_mismatch :
    let s := { window (.syncRead 0x38 2 [3, 1, 2] 10) [0xFF, 0xFF, 0x01, 0x04, 0x00, 0x18, 0x05] with
      slot := 1, slots := [⟨3, .ok, some 0, [0x00, 0x08]⟩] }.handle params (.rxByte 0xDC)
    s.slot = 2 ∧ s.rxfifo = [] ∧ s.seq = .await
    ∧ s.slots = [⟨3, .ok, some 0, [0x00, 0x08]⟩, ⟨1, .checksumMismatch, none, []⟩] := by decide

/-- G10, last Tick: the slot reports TIMEOUT and the batch completes with its bytes left in the FIFO. -/
theorem test_slot_timeout :
    let s := { window (.syncRead 0x38 2 [3, 1] 10) [0xFF, 0xFF, 0x01, 0x04] with
      slot := 1, slots := [⟨3, .ok, some 0, [0x00, 0x08]⟩], timer := 9 }.handle params .tick
    s.rxfifo = [0xFF, 0xFF, 0x01, 0x04]
    ∧ s.result = some ⟨.ok, none, [], [⟨3, .ok, some 0, [0x00, 0x08]⟩, ⟨1, .timeout, none, []⟩]⟩ := by decide

/-! ## The transport -/

/-- T2, T3, T5: a failing OPEN leaves the connection closed and the FIFO empty. -/
theorem test_open_fails :
    (State.reset.handle params (.issue (.openPort 1234 true))).result = some (codeOnly .unsupportedBaud)
    ∧ (State.reset.handle params (.issue (.openPort 1234 false))).result = some (codeOnly .portUnavailable)
    ∧ ({ ready with rxfifo := [1, 2, 3] }.handle params (.issue (.openPort 1234 true))).conn = .closed
    ∧ ({ ready with rxfifo := [1, 2, 3] }.handle params (.issue (.openPort 1234 true))).rxfifo = [] := by decide

/-- T4. -/
theorem test_open_flushes :
    let s := { ready with rxfifo := [1, 2, 3], rxOverrun := true }.handle params (.issue (.openPort 9600 true))
    s.conn = .opened ∧ s.baud = some 9600 ∧ s.rxfifo = [] ∧ s.rxOverrun = false := by decide

/-- T8: the receiver is off while closed. -/
theorem test_rx_closed : State.reset.handle params (.rxByte 0xFF) = State.reset := by decide

/-- T9: a link failure while sending. -/
theorem test_link_fail :
    let s := (sending (.ping 1 5) [0xFF, 0xFF, 0x01, 0x02, 0x01, 0xFB]).handle params .linkFail
    s.result = some (codeOnly .ioError) ∧ s.conn = .closed ∧ s.seq = .idle ∧ s.txbuf = [] := by decide

/-- T10: with `t = 0` the first Tick expires the window. -/
theorem test_timeout_zero :
    ((window (.ping 1 0) []).handle params .tick).result = some (codeOnly .notResponding) := by decide

/-- S4, S13: a PING that expires is NOT_RESPONDING though bytes were heard, and a READ is TIMEOUT. -/
theorem test_expiry_after_bytes :
    ({ window (.ping 1 10) [0xFF, 0xFF, 0x01] with timer := 9 }.handle params .tick).result
      = some (codeOnly .notResponding)
    ∧ ({ window (.read 1 0x38 2 10) [0xFF, 0xFF, 0x01] with timer := 9 }.handle params .tick).result
      = some (codeOnly .timeout) := by decide

/-- S16: a stale frame in the FIFO ends the command in the Sent step. -/
theorem test_stale_frame_at_sent :
    let s := { lastByte (.ping 1 10) [0xFF, 0xFF, 0x01, 0x02, 0x01, 0xFB] with
      rxfifo := [0xFF, 0xFF, 0x02, 0x02, 0x00, 0xFB] }.handle params .txAccept
    s.result = some (codeOnly .idMismatch) ∧ s.rxfifo = [] := by decide

/-- A busy engine takes no command: the event waits (R141). -/
theorem test_issue_waits :
    takeEnabled .sending [.issue .closePort, .tick] = some (.tick, [.issue .closePort]) := by decide

/-! ## Witnesses: states and operands that meet the hypotheses of each obligation -/

/-- The invariant of a state that is idle and open. -/
theorem ready_inv (p : Params) : EngineInv p ready := by
  constructor <;> simp [ready, State.reset]

theorem closed_inv (p : Params) : EngineInv p State.reset := by
  constructor <;> simp [State.reset]

/-- The invariant of a window that has just opened with an empty FIFO. -/
theorem window_inv (p : Params) (c : Command) (hc : accepted c = true) (hw : awaits c = true) :
    EngineInv p (window c []) := by
  constructor <;> simp [window, ready, State.reset, hc, hw, decodeResponse, findSync, decodeNoSync]
  rintro addr len ids t rfl
  simp only [accepted, badArgument, Bool.and_eq_true, Bool.not_eq_true', Bool.or_eq_false_iff,
    decide_eq_false_iff_not] at hc
  omega

theorem sending_inv (p : Params) (c : Command) (w : Wire) (hc : accepted c = true) (hf : frameOf c = some w)
    (hl : w.params.length ≤ 253) : EngineInv p (sending c w.frame) := by
  constructor <;> simp [sending, ready, State.reset, hc, hf, encodeFrame_eq_some hl]
  rintro addr len ids t rfl
  simp only [accepted, badArgument, Bool.and_eq_true, Bool.not_eq_true', Bool.or_eq_false_iff,
    decide_eq_false_iff_not] at hc
  omega

theorem log_inv (c : Command) (rx : List Byte) : LogInv (window c rx) := by
  constructor <;> simp [window, ready, State.reset]

theorem empty_incomplete (scanLimit : Nat) : decodeResponse scanLimit [] = .incomplete := by
  simp [decodeResponse, findSync, decodeNoSync]

theorem witness_InstructionFramesDecodeBack :
    (Instr.read 253 0xFF 253 9).wf = true ∧ ∀ u, (Instr.read 253 0xFF 253 9).timeout? = some u → u = 9 := by
  simp [Instr.timeout?, Instr.wf, isUnicast, isReadLength]

theorem witness_DecodedFramesReencode :
    decodeInstr 7 [0xFF, 0xFF, 0x01, 0x02, 0x01, 0xFB, 0xAA] = .ok (.ping 1 7, [0xAA]) := by rfl

/-- Both sides of the size limit. -/
theorem witness_EncodingFailsExactlyAbove253Params :
    (encodeFrame ⟨1, 0x03, List.replicate 253 0⟩).map List.length = some 259
    ∧ encodeFrame ⟨1, 0x03, List.replicate 254 0⟩ = none ∧ ready.seq = .idle ∧ ready.conn = .opened
    ∧ badArgument (commandOf (.reset 1 (List.replicate 254 0) 5)) = false
    ∧ (Instr.reset 1 (List.replicate 254 0) 5).params.length > 253 := by decide +kernel

theorem witness_FrameBytesSumTo255 :
    encodeFrame ⟨1, 0x01, []⟩ = some [0xFF, 0xFF, 0x01, 0x02, 0x01, 0xFB]
    ∧ decodeResponse 16 [0xAA, 0xFF, 0xFF, 0x01, 0x02, 0x00, 0xFC] = .found (.ok 1 0 []) 7
    ∧ findSync [0xAA, 0xFF, 0xFF, 0x01, 0x02, 0x00, 0xFC] = some 1 := by decide

/-- A sync at the last index below the scan limit, and none below it. -/
theorem witness_DecodeFollowsItsRule :
    (confirmedSync [0, 0, 0, 0xFF, 0xFF, 0x01] 3 ∧ ∀ j < 3, ¬confirmedSync [0, 0, 0, 0xFF, 0xFF, 0x01] j)
    ∧ ∀ i < 4, ¬confirmedSync [0, 0, 0, 0, 0xFF, 0xFF, 0x01] i := by
  unfold confirmedSync
  decide

theorem witness_DecodeConsumesAtLeastOneByte :
    decodeResponse params.scanLimit [0xFF, 0xFF, 0x01, 0x00] = .found .malformed 4 := by decide

/-- The largest ID and the most parameters. -/
theorem witness_DecodeRecoversEncodedFrame :
    (⟨254, 0x03, List.replicate 253 0⟩ : Wire).id.toNat ≤ 254
    ∧ (⟨254, 0x03, List.replicate 253 0⟩ : Wire).params.length ≤ 253 := by decide +kernel

/-- A flip for each clause, in a frame of one parameter: the first and last byte after LEN, an ID that becomes another
ID, an ID that becomes 0xFF, a LEN below 2, a longer and a shorter LEN, and a sync byte. -/
theorem witness_SingleBitSensitivity :
    let f := Wire.frame ⟨0x7F, 0x00, [0x10, 0x20]⟩
    f.length = 8 ∧ (flipBit f 2 0).getD 2 0 ≠ 0xFF ∧ (flipBit f 2 7).getD 2 0 = 0xFF
    ∧ ((flipBit f 3 2).getD 3 0).toNat < 2 ∧ ((flipBit f 3 0).getD 3 0).toNat > 4
    ∧ (let g := Wire.frame ⟨1, 0x00, [0x10]⟩
      2 ≤ ((flipBit g 3 0).getD 3 0).toNat ∧ ((flipBit g 3 0).getD 3 0).toNat < 3) := by decide

theorem witness_OutputsFollowTheSequencer :
    let s := sending (.ping 1 5) [0xFF, 0xFF, 0x01, 0x02, 0x01, 0xFB]
    s.seq = .sending ∧ s.txbuf[s.txpos]? = some 0xFF := by decide

/-- A list with none enabled, and an enabled event. -/
theorem witness_StepHandlesFirstEnabledEvent :
    (∀ w ∈ [Event.txAccept], w.enabled ready.seq = false) ∧ Event.tick.enabled ready.seq = true := by decide

theorem witness_StepRunsTheIssuedInstruction :
    ready.seq = .idle ∧ instrOf? (.txn 0x0B 1 [] 5) = some (.positionCalibrate 1 [] 5) := by decide

theorem witness_StepRunsTheDecodedWord : decodeTableWord 24 0x023802 = some (.read 0 0x38 2 0) := by decide

/-- The ready state with the largest and the smallest ID of a PING. -/
theorem witness_PingStartsItsFrame :
    ready.seq = .idle ∧ ready.conn = .opened ∧ (253 : Byte).toNat ≤ 253 ∧ (0 : Byte).toNat ≤ 253 := by decide

theorem witness_ReadStartsItsFrame :
    ready.seq = .idle ∧ ready.conn = .opened ∧ (253 : Byte).toNat ≤ 253 ∧ 1 ≤ (1 : Byte).toNat
    ∧ (253 : Byte).toNat ≤ 253 := by decide

/-- The broadcast address, and the most data bytes. -/
theorem witness_WritesStartTheirFrames :
    ready.seq = .idle ∧ ready.conn = .opened ∧ (254 : Byte).toNat ≤ 254
    ∧ 1 ≤ (List.replicate 252 (0 : Byte)).length ∧ (List.replicate 252 (0 : Byte)).length ≤ 252 := by decide +kernel

theorem witness_ActionAndRebootStartTheirFrames :
    ready.seq = .idle ∧ ready.conn = .opened ∧ (254 : Byte).toNat ≤ 254 := by decide

theorem witness_MaintenanceStartsItsFrames :
    ready.seq = .idle ∧ ready.conn = .opened ∧ (254 : Byte).toNat ≤ 254
    ∧ (List.replicate 253 (0 : Byte)).length ≤ 253 := by decide +kernel

/-- The most devices: 251 distinct IDs. -/
theorem witness_SyncReadStartsItsFrame :
    let ids := (List.range 251).map (BitVec.ofNat 8)
    ready.seq = .idle ∧ ready.conn = .opened ∧ 1 ≤ (253 : Byte).toNat ∧ (253 : Byte).toNat ≤ 253 ∧ 1 ≤ ids.length
    ∧ ids.length ≤ 251 ∧ (∀ id ∈ ids, id.toNat ≤ 253) ∧ ids.Nodup := by decide +kernel

/-- One device with the most bytes. -/
theorem witness_SyncWriteStartsItsFrame :
    let entries := [Entry.mk 253 (List.replicate 250 0)]
    ready.seq = .idle ∧ ready.conn = .opened ∧ 1 ≤ (250 : Byte).toNat ∧ 1 ≤ entries.length
    ∧ entries.length * ((250 : Byte).toNat + 1) ≤ 251
    ∧ (∀ e ∈ entries, e.id.toNat ≤ 253 ∧ e.data.length = (250 : Byte).toNat)
    ∧ (entries.map Entry.id).Nodup := by decide +kernel

theorem witness_ClosedEngineAnswersNotOpen :
    EngineInv params State.reset ∧ State.reset.seq = .idle ∧ State.reset.conn = .closed
    ∧ (∀ baud present, Command.ping 1 5 ≠ .openPort baud present) ∧ Command.ping 1 5 ≠ .closePort :=
  ⟨closed_inv _, by simp [State.reset]⟩

/-- For WRITE: an argument that is bad, a size that is too large and operands that pass, each at its boundary. -/
theorem witness_ValidationFollowsItsTable :
    ready.seq = .idle ∧ State.reset.seq = .idle ∧ ready.conn = .opened ∧ State.reset.conn = .closed
    ∧ (255 : Byte).toNat > 254 ∧ ¬((254 : Byte).toNat > 254 ∨ List.replicate 253 (0 : Byte) = [])
    ∧ 1 + (List.replicate 253 (0 : Byte)).length > 253 ∧ ¬(1 + (List.replicate 252 (0 : Byte)).length > 253) := by
  decide +kernel

/-- A batch with each kind of bad argument, one that is too large, and one that passes. -/
theorem witness_SyncWriteValidation :
    ready.seq = .idle ∧ ready.conn = .opened ∧ State.reset.conn = .closed
    ∧ (Entry.mk 254 [0]).id.toNat > 253 ∧ ¬([Entry.mk 1 [0], ⟨1, [0]⟩].map Entry.id).Nodup
    ∧ (Entry.mk 1 [0, 0]).data.length ≠ (1 : Byte).toNat
    ∧ 2 + [Entry.mk 1 (List.replicate 251 0)].length * ((251 : Byte).toNat + 1) > 253
    ∧ ¬(2 + [Entry.mk 1 (List.replicate 250 0)].length * ((250 : Byte).toNat + 1) > 253) := by decide +kernel

theorem witness_SyncReadValidation :
    ready.seq = .idle ∧ ready.conn = .opened ∧ State.reset.conn = .closed ∧ (254 : Byte).toNat > 253
    ∧ ¬([1, 1] : List Byte).Nodup ∧ ((List.range 252).map (BitVec.ofNat 8)).Nodup
    ∧ 2 + ((List.range 252).map (BitVec.ofNat 8)).length > 253
    ∧ ¬(2 + ((List.range 251).map (BitVec.ofNat 8)).length > 253) := by decide +kernel

theorem witness_EngineAcceptsExactlyWellFormedInstructions :
    ready.seq = .idle ∧ ready.conn = .opened ∧ (Instr.ping 253 5).wf = true ∧ (Instr.ping 254 5).wf = false := by decide

/-- An idle engine that starts a frame, one that refuses, and a busy engine. -/
theorem witness_IssuingAnInstructionFrame :
    ready.seq = .idle ∧ (next? (exec (.ping 1 5) ready)).map State.seq = some .sending
    ∧ (next? (exec (.ping 254 5) ready)).map State.seq = some .idle
    ∧ (window (.ping 1 5) []).seq ≠ .idle
    ∧ (next? (exec (.ping 1 5) (window (.ping 1 5) []))).map State.inbox = some [.issue (.ping 1 5)] := by decide

theorem witness_OpenFollowsItsRule :
    ready.seq = .idle ∧ params.supportsBaud 1234 = false ∧ params.supportsBaud 9600 = true := by decide

theorem witness_CloseIsIdempotent : ready.seq = .idle := rfl

/-- A step that opens and one that closes. -/
theorem witness_OnlyOpenOpensTheConnection :
    Event.enabled .idle (.issue (.openPort 9600 true)) = true ∧ Event.enabled .idle (.issue .closePort) = true
    ∧ State.reset.conn = .closed ∧ (State.reset.handle params (.issue (.openPort 9600 true))).conn = .opened
    ∧ ready.conn = .opened ∧ (ready.handle params (.issue .closePort)).conn = .closed := by decide

/-- A byte with more to come, and the last byte of a frame that is answered and of one that is not. -/
theorem witness_TxAcceptFollowsItsRule :
    let s := sending (.ping 1 5) [0xFF, 0xFF, 0x01, 0x02, 0x01, 0xFB]
    let l := lastByte (.ping 1 5) [0xFF, 0xFF, 0x01, 0x02, 0x01, 0xFB]
    s.seq = .sending ∧ s.txbuf[s.txpos]? = some 0xFF ∧ s.txpos + 1 < s.txbuf.length
    ∧ l.seq = .sending ∧ l.txbuf[l.txpos]? = some 0xFB ∧ l.txpos + 1 = l.txbuf.length ∧ l.cur = some (.ping 1 5)
    ∧ opensWindow (.ping 1 5) ∧ ¬opensWindow (.action 0xFE 5) ∧ ¬opensWindow (.reboot 1)
    ∧ decodeResponse params.scanLimit l.rxfifo = .incomplete := by
  simp only [opensWindow]
  decide

theorem witness_IssuedFrameGoesOutWhole :
    ready.seq = .idle ∧ ready.conn = .opened ∧ (Instr.ping 1 5).wf = true ∧ (Instr.reboot 0xFE).wf = true
    ∧ ¬opensWindow (commandOf (.reboot 0xFE)) ∧ opensWindow (commandOf (.ping 1 5)) := by
  simp only [opensWindow, commandOf]
  decide

/-- A link failure ends SENDING. -/
theorem witness_SendingEndsWithTheWholeFrameOrIoError :
    let s := sending (.reboot 1) (Wire.frame ⟨1, 0x08, []⟩)
    EngineInv params s ∧ s.seq = .sending ∧ Event.linkFail.enabled s.seq = true
    ∧ (s.handle params .linkFail).seq = .idle :=
  ⟨sending_inv params _ _ rfl rfl (by decide), rfl, rfl, rfl⟩

theorem witness_TransmitHangIsKept :
    (sending (.ping 1 5) [0xFF, 0xFF, 0x01, 0x02, 0x01, 0xFB]).seq = .sending
    ∧ ∀ e ∈ [Event.tick, .rxByte 0x55],
        e.enabled .sending = true ∧ e ≠ .txAccept ∧ e ≠ .linkFail ∧ e ≠ .reset := by decide

/-- A full FIFO of the least depth the parameters allow. -/
def smallest : Params where
  scanLimit := 1
  rxFifoDepth := 260
  supportsBaud b := b == 9600
  tickPeriod := 1
  scanLimit_pos := by decide
  rxFifoDepth_ge := by decide
  supportsBaud_pos := rfl
  tickPeriod_pos := by decide

/-- Closed, with room, and full; idle and in a window. The byte that a full FIFO drops inside a window sets the
flag, and Settle follows. -/
theorem witness_ReceivedByteFollowsItsRule :
    State.reset.seq ≠ .await ∧ State.reset.conn = .closed ∧ ready.conn = .opened
    ∧ ready.rxfifo.length < smallest.rxFifoDepth
    ∧ smallest.rxFifoDepth ≤ { ready with rxfifo := List.replicate 260 0 }.rxfifo.length
    ∧ (window (.ping 1 5) []).seq = .await ∧ (window (.ping 1 5) []).conn = .opened
    ∧ decodeResponse smallest.scanLimit [0xFF] = .incomplete
    ∧ (let full := window (.ping 1 5) (List.replicate 260 0)
      full.seq = .await ∧ full.conn = .opened ∧ smallest.rxFifoDepth ≤ full.rxfifo.length
      ∧ (full.handle smallest (.rxByte 1)).rxOverrun = true
      ∧ (full.handle smallest (.rxByte 1)).rxfifo.length = 259) := by decide +kernel

/-- A byte that overruns, and an OPEN that clears the flag. -/
theorem witness_OverrunFlagIsSticky :
    let full := { ready with rxfifo := List.replicate 260 0 }
    let marked := { ready with rxOverrun := true }
    smallest.rxFifoDepth ≤ full.rxfifo.length ∧ full.rxOverrun = false ∧ full.conn = .opened
    ∧ (full.handle smallest (.rxByte 1)).rxOverrun = true
    ∧ (marked.handle smallest (.issue (.openPort 9600 true))).rxOverrun = false
    ∧ (marked.handle smallest (.issue (.openPort 9600 true))).conn = .opened := by decide +kernel

/-- Outside a window; in one before its last Tick, and at it, for a timeout of 2, for `t = 0` and for a slot. -/
theorem witness_TickFollowsItsRule :
    ready.seq ≠ .await ∧ (window (.read 1 0 1 2) []).seq = .await
    ∧ (∀ scanLimit, decodeResponse scanLimit (window (.read 1 0 1 2) []).rxfifo = .incomplete)
    ∧ timeoutOperand (.read 1 0 1 2) = some 2 ∧ ((0 : Ticks) + 1).toNat < (2 : Ticks).toNat
    ∧ (2 : Ticks).toNat ≤ ((1 : Ticks) + 1).toNat ∧ (0 : Ticks).toNat ≤ ((0 : Ticks) + 1).toNat
    ∧ ([3, 1] : List Byte)[(window (.syncRead 0 1 [3, 1] 2) []).slot]? = some 3 :=
  ⟨by decide, rfl, fun _ => empty_incomplete _, rfl, by decide, by decide, by decide, rfl⟩

theorem witness_QuietWindowExpiresAtItsTimeout :
    EngineInv params (window (.read 1 0x38 2 10) []) ∧ (window (.read 1 0x38 2 10) []).seq = .await
    ∧ (∀ addr len ids u, Command.read 1 0x38 2 10 ≠ .syncRead addr len ids u)
    ∧ timeoutOperand (.read 1 0x38 2 10) = some 10 ∧ (window (.read 1 0x38 2 10) []).timer = 0 :=
  ⟨window_inv _ _ rfl rfl, rfl, by simp, rfl, rfl⟩

/-- A slot with another after it, and the last slot. -/
theorem witness_QuietSlotExpiresAtItsTimeout :
    EngineInv params (window (.syncRead 0x38 2 [3, 1] 10) []) ∧ EngineInv params (window (.syncRead 0x38 2 [3] 0) [])
    ∧ ([3, 1] : List Byte)[0]? = some 3 ∧ 0 + 1 < ([3, 1] : List Byte).length ∧ 0 + 1 = ([3] : List Byte).length :=
  ⟨window_inv _ _ rfl rfl, window_inv _ _ rfl rfl, rfl, by decide, rfl⟩

theorem witness_SettleLeavesNothingToDecode :
    ((window (.ping 1 5) [0xFF, 0xFF]).settle params.scanLimit).seq = .await := by decide

/-- A frame of each kind in a single-device window. -/
theorem witness_ResolveFollowsItsRule :
    (window (.ping 1 5) []).seq = .await
    ∧ decodeResponse 16 (List.replicate 18 0) = .found .syncNotFound 16
    ∧ decodeResponse 16 [0xFF, 0xFF, 0x01, 0x01] = .found .malformed 4
    ∧ decodeResponse 16 [0xFF, 0xFF, 0x01, 0x02, 0x00, 0xFD] = .found .checksumMismatch 6
    ∧ decodeResponse 16 [0xFF, 0xFF, 0x01, 0x02, 0x00, 0xFC] = .found (.ok 1 0 []) 6
    ∧ opensWindow (.ping 2 5) ∧ awaitedResponse (.ping 2 5) = some (2, some 0)
    ∧ opensWindow (.read 1 0 1 5) ∧ awaitedResponse (.read 1 0 1 5) = some (1, some 1)
    ∧ opensWindow (.txn 0x06 1 [] 5) ∧ awaitedResponse (.txn 0x06 1 [] 5) = some (1, none) := by
  simp only [opensWindow]
  decide

theorem witness_ResolveSlotFollowsItsRule :
    (window (.syncRead 0x38 2 [3, 1] 10) []).cur = some (.syncRead 0x38 2 [3, 1] 10)
    ∧ ([3, 1] : List Byte)[(window (.syncRead 0x38 2 [3, 1] 10) []).slot]? = some 3 := by decide

/-- READ of one byte, answered with ticks between the bytes. -/
theorem witness_AddressedReplyIsDelivered :
    EngineInv params ready ∧ ready.seq = .idle ∧ ready.conn = .opened ∧ ready.rxfifo = [] ∧ NoByteLost ready
    ∧ (Instr.read 1 0x38 2 10).wf = true ∧ opensWindow (commandOf (.read 1 0x38 2 10))
    ∧ awaitedResponse (commandOf (.read 1 0x38 2 10)) = some (1, some ([0x18, 0x05] : List Byte).length)
    ∧ timeoutOperand (commandOf (.read 1 0x38 2 10)) = some 10
    ∧ (let line : List (Option Byte) := [some 0xFF, none, some 0xFF, some 0x01, none, some 0x04, some 0x00, some 0x18,
          some 0x05, some 0xDD]
      line.reduceOption = Wire.frame ⟨1, 0, [0x18, 0x05]⟩
      ∧ line.count none < max 1 (10 : Ticks).toNat) :=
  ⟨ready_inv _, rfl, rfl, rfl, rfl, rfl, by simp [opensWindow, commandOf], rfl, rfl, by decide⟩

/-- V8: the second of three frames is corrupt. -/
theorem witness_OneCorruptReplyDoesNotSpoilTheOthers :
    let ids : List Byte := [3, 1, 2]
    let replies := [SlotReply.mk 0 [0x00, 0x08] 0xF0, ⟨0, [0x18, 0x05], 0xDC⟩, ⟨0, [0xFF, 0x0F], 0xEB⟩]
    let lines : List (List (Option Byte)) :=
      [[none, some 0xFF, some 0xFF, some 0x03, some 0x04, some 0x00, some 0x00, some 0x08, some 0xF0],
        [some 0xFF, some 0xFF, some 0x01, some 0x04, some 0x00, some 0x18, some 0x05, none, some 0xDC],
        [some 0xFF, some 0xFF, some 0x02, some 0x04, some 0x00, some 0xFF, some 0x0F, some 0xEB]]
    EngineInv params (window (.syncRead 0x38 2 ids 10) []) ∧ replies.length = ids.length
    ∧ (∀ r ∈ replies, r.data.length = (2 : Byte).toNat)
    ∧ lines.map List.reduceOption = List.zipWith SlotReply.bytes ids replies
    ∧ (∀ line ∈ lines, line.getLast? ≠ some none ∧ line.count none < max 1 (10 : Ticks).toNat)
    ∧ List.zipWith SlotReply.entry ids replies
        = [⟨3, .ok, some 0, [0x00, 0x08]⟩, ⟨1, .checksumMismatch, none, []⟩, ⟨2, .ok, some 0, [0xFF, 0x0F]⟩] :=
  ⟨window_inv _ _ rfl rfl, rfl, by decide, by decide, by decide, by decide⟩

/-- A one-slot SYNC_READ whose timeout of 0 ends it at a Tick, and one that a link failure ends. -/
theorem witness_CompletedSyncReadHasOneEntryPerDevice :
    let s := window (.syncRead 0x38 2 [3] 0) []
    EngineInv params s ∧ LogInv s ∧ s.seq = .await ∧ Event.tick.enabled s.seq = true
    ∧ (s.handle params .tick).seq = .idle ∧ Event.linkFail.enabled s.seq = true
    ∧ (s.handle params .linkFail).seq = .idle :=
  ⟨window_inv params _ rfl rfl, log_inv _ _, rfl, rfl, rfl, rfl, rfl⟩

theorem witness_BroadcastOpensNoWindow :
    let s := sending (.action 0xFE 5) (Wire.frame ⟨0xFE, 0x05, []⟩)
    EngineInv params s ∧ frameOf (.action 0xFE 5) = some ⟨0xFE, 0x05, []⟩
    ∧ (∀ addr len ids t, Command.action 0xFE 5 ≠ .syncRead addr len ids t)
    ∧ Event.enabled s.seq (.rxByte 0x55) = true ∧ (s.handle params (.rxByte 0x55)).rxfifo = [0x55] :=
  ⟨sending_inv params _ _ rfl rfl (by decide), rfl, by simp, rfl, rfl⟩

/-- An event that posts, and one that sends a byte. -/
theorem witness_OnlyPostEndsACommand :
    let s := sending (.ping 1 5) [0xFF, 0xFF, 0x01, 0x02, 0x01, 0xFB]
    Event.enabled ready.seq (.issue .closePort) = true
    ∧ (ready.handle params (.issue .closePort)).results = [codeOnly .ok]
    ∧ Event.txAccept.enabled s.seq = true ∧ (s.handle params .txAccept).txlog = [0xFF] := by decide

theorem witness_EveryStepKeepsTheEngineInvariant :
    let s := { window (.ping 1 5) [] with inbox := [.linkFail] }
    EngineInv Config.params s ∧ (next? (step s)).map State.seq = some .idle :=
  ⟨{ window_inv Config.params (.ping 1 5) rfl rfl with }, rfl⟩

theorem witness_EveryStepKeepsResultsShaped :
    let s := { window (.ping 1 5) [] with inbox := [.linkFail] }
    EngineInv Config.params s ∧ LogInv s ∧ (next? (step s)).map State.seq = some .idle :=
  ⟨{ window_inv Config.params (.ping 1 5) rfl rfl with }, { log_inv (.ping 1 5) [] with }, rfl⟩

end Sys2Proof.Tests
end

-- The transport and the life of a command.
section
/-! SUPPORT. What each event does to the link's elements (10_state.md R21, R22, R28, R35) and to the command in
progress (R24, R34, 60_exceptions.md R205). -/

namespace Sys2Proof.Machine

/-! ## What each event can do -/

/-- TxAccept takes nothing, or the offered byte; the byte that ends the frame is followed by Sent (R104). -/
theorem txAccept_cases (s : State) :
    (s.txbuf[s.txpos]? = none ∧ s.txAccept = s)
    ∨ ∃ b, s.txbuf[s.txpos]? = some b
        ∧ ((s.txpos + 1 ≠ s.txbuf.length
            ∧ s.txAccept = { s with txlog := s.txlog ++ [b], txpos := s.txpos + 1 })
          ∨ (s.txpos + 1 = s.txbuf.length
            ∧ s.txAccept = State.sent { s with txlog := s.txlog ++ [b], txpos := s.txpos + 1 })) := by
  cases hb : s.txbuf[s.txpos]? with
  | none => exact .inl ⟨rfl, by simp [State.txAccept, hb]⟩
  | some b =>
    refine .inr ⟨b, rfl, ?_⟩
    by_cases hl : s.txpos + 1 = s.txbuf.length
    · exact .inr ⟨hl, by simp [State.txAccept, hb, hl]⟩
    · exact .inl ⟨hl, by simp [State.txAccept, hb, hl]⟩

/-- A received byte is lost while closed, joins a FIFO with room, or sets the overrun flag of a full one; in AWAIT an
open connection hears it (R106). -/
theorem rxByte_cases (p : Params) (s : State) (b : Byte) :
    (s.conn = .closed ∧ s.rxByte p b = s)
    ∨ (s.conn = .opened ∧ s.rxfifo.length < p.rxFifoDepth
        ∧ s.rxByte p b = { s with heard := s.heard || s.seq == .await, rxfifo := s.rxfifo ++ [b] })
    ∨ (s.conn = .opened ∧ p.rxFifoDepth ≤ s.rxfifo.length
        ∧ s.rxByte p b = { s with heard := s.heard || s.seq == .await, rxOverrun := true }) := by
  cases hc : s.conn with
  | closed => exact .inl ⟨rfl, by simp [State.rxByte, hc]⟩
  | opened =>
    rcases Nat.lt_or_ge s.rxfifo.length p.rxFifoDepth with hl | hl
    · refine .inr (.inl ⟨rfl, hl, ?_⟩)
      cases ha : s.seq <;> simp [State.rxByte, hc, ha, hl]
    · refine .inr (.inr ⟨rfl, hl, ?_⟩)
      cases ha : s.seq <;> simp [State.rxByte, hc, ha, Nat.not_lt.2 hl]

/-- A tick is ignored outside AWAIT; in a window it is counted, and the one that reaches the timeout lets the window
expire (R109). -/
theorem tick_cases (s : State) :
    (s.seq ≠ .await ∧ s.tick = s)
    ∨ (s.seq = .await ∧ (∀ t, s.cur.bind timeoutOf = some t → (s.timer + 1).toNat < t.toNat)
        ∧ s.tick = { s with timer := s.timer + 1 })
    ∨ (s.seq = .await ∧ (∃ t, s.cur.bind timeoutOf = some t ∧ t.toNat ≤ (s.timer + 1).toNat)
        ∧ s.tick = State.expire { s with timer := s.timer + 1 }) := by
  by_cases ha : s.seq = .await
  · refine .inr ?_
    cases ht : s.cur.bind timeoutOf with
    | none => exact .inl ⟨ha, nofun, by simp [State.tick, ha, ht]⟩
    | some t =>
      rcases Nat.lt_or_ge (s.timer + 1).toNat t.toNat with hl | hl
      · refine .inl ⟨ha, ?_, ?_⟩
        · rintro _ ⟨⟩
          exact hl
        · simp only [State.tick, if_pos ha, ht, if_neg (Nat.not_le.2 hl)]
      · refine .inr ⟨ha, ⟨t, rfl, hl⟩, ?_⟩
        simp only [State.tick, if_pos ha, ht, if_pos hl]
  · exact .inl ⟨ha, if_neg ha⟩

@[simp] theorem handle_linkFail (p : Params) (s : State) :
    s.handle p .linkFail = s.disconnect.post (.only .ioError) := settle_post ..

@[simp] theorem handle_reset (p : Params) (s : State) : s.handle p .reset = s.resetEngine :=
  settle_of_not_await (by simp)

/-- OPEN opens the port at its rate, or posts a code with the connection closed (R101). -/
theorem openPort_cases (p : Params) (s : State) (baud : Nat) (present : Bool) :
    (present = true ∧ p.supportsBaud baud = true
      ∧ s.openPort p baud present
        = State.post { s with cur := some (.openPort baud present), conn := .opened, baud := some baud, rxfifo := [],
                              rxOverrun := false } (.only .ok))
    ∨ ∃ (t : State) (code : ResultCode), (present = false ∨ p.supportsBaud baud = false)
        ∧ s.openPort p baud present = t.post (.only code) ∧ t.conn = .closed
        ∧ t.rxOverrun = s.rxOverrun ∧ t.txlog = s.txlog ∧ t.results = s.results := by
  unfold State.openPort
  dsimp only
  generalize hs1 : (if s.conn = .opened then _ else _) = s1
  have hclosed : s1.conn = .closed := by
    subst hs1
    cases s.conn <;> simp
  have hkept : s1.rxOverrun = s.rxOverrun ∧ s1.txlog = s.txlog ∧ s1.results = s.results := by
    subst hs1
    split <;> exact ⟨rfl, rfl, rfl⟩
  cases present with
  | false => exact .inr ⟨s1, .portUnavailable, .inl rfl, by simp, hclosed, hkept⟩
  | true =>
    cases hb : p.supportsBaud baud with
    | false => exact .inr ⟨s1, .unsupportedBaud, .inr rfl, by simp, hclosed, hkept⟩
    | true =>
      refine .inl ⟨rfl, rfl, ?_⟩
      simp only [Bool.not_true, Bool.false_eq_true, if_false]
      split at hs1 <;> subst hs1 <;> rfl

/-- The Issue step runs OPEN, CLOSE, or the issue of a command that has a frame (R141). -/
theorem handle_issue_cases (p : Params) {s : State} (c : Command) (hs : s.seq = .idle) :
    (∃ baud present, c = .openPort baud present ∧ s.handle p (.issue c) = s.openPort p baud present)
    ∨ (c = .closePort ∧ s.handle p (.issue c) = s.closePort)
    ∨ ((frameOf c).isSome = true ∧ s.handle p (.issue c) = s.issue c) := by
  cases c with
  | openPort baud present => exact .inl ⟨baud, present, rfl, if_pos hs⟩
  | closePort => exact .inr (.inl ⟨rfl, if_pos hs⟩)
  | _ => exact .inr (.inr ⟨rfl, rfl⟩)

theorem handle_issue_openPort (p : Params) {s : State} (baud : Nat) (present : Bool) (hs : s.seq = .idle) :
    s.handle p (.issue (.openPort baud present)) = s.openPort p baud present := if_pos hs

theorem handle_issue_closePort (p : Params) {s : State} (hs : s.seq = .idle) :
    s.handle p (.issue .closePort) = s.closePort := if_pos hs

/-- Issue is enabled exactly in IDLE (R40). -/
theorem issue_enabled {seq : Seq} {c : Command} : (Event.issue c).enabled seq = true ↔ seq = .idle := by
  simp [Event.enabled]

/-! ## The link's elements -/

/-- The elements of the state that no result and no receive window writes. -/
structure Link where
  conn : Conn
  baud : Option Nat
  rxOverrun : Bool
  txlog : List Byte

/-- The link's elements of a state. -/
def State.link (s : State) : Link := ⟨s.conn, s.baud, s.rxOverrun, s.txlog⟩

theorem conn_of_link {s s' : State} (h : s'.link = s.link) : s'.conn = s.conn := congrArg Link.conn h
theorem rxOverrun_of_link {s s' : State} (h : s'.link = s.link) : s'.rxOverrun = s.rxOverrun :=
  congrArg Link.rxOverrun h
theorem txlog_of_link {s s' : State} (h : s'.link = s.link) : s'.txlog = s.txlog := congrArg Link.txlog h

@[simp] theorem post_link (s : State) (r : Result) : (s.post r).link = s.link := rfl

@[simp] theorem nextSlot_link (s : State) (n : Nat) (sr : SlotResult) : (s.nextSlot n sr).link = s.link := by
  unfold State.nextSlot
  split <;> rfl

@[simp] theorem resolve_link (s : State) (r : FrameResult) : (s.resolve r).link = s.link := by
  rcases resolve_cases s r with h | ⟨_, _, _, h⟩ | ⟨_, _, _, _, _, _, _, h⟩ <;> simp [h]

@[simp] theorem expire_link (s : State) : s.expire.link = s.link := by
  rcases expire_cases s with h | ⟨_, _, h⟩ | ⟨_, _, _, _, _, _, _, h⟩ <;> simp [h]

@[simp] theorem sent_link (s : State) : s.sent.link = s.link := by
  cases hc : s.cur with
  | none => simp [State.sent, hc]
  | some c => rcases sent_cases hc with ⟨-, h⟩ | ⟨-, h⟩ <;> rw [h] <;> rfl

@[simp] theorem settle_link (scanLimit : Nat) (s : State) : (s.settle scanLimit).link = s.link :=
  settleLoop_induction (P := fun t => t.link = s.link)
    (fun _ r _ h _ _ => (resolve_link _ r).trans h) _ s rfl

@[simp] theorem tick_link (s : State) : s.tick.link = s.link := by
  rcases tick_cases s with ⟨-, h⟩ | ⟨-, -, h⟩ | ⟨-, -, h⟩ <;> rw [h]
  · rfl
  · exact expire_link _

theorem issue_link {s : State} {c : Command} (hs : s.seq = .idle) (hf : (frameOf c).isSome = true) :
    (s.issue c).link = s.link := by
  rcases issue_cases hs hf with ⟨_, h⟩ | ⟨_, _, h⟩ | ⟨_, _, _, h⟩ | ⟨_, _, _, _, _, h⟩ <;> rw [h] <;> rfl

theorem handle_tick_link (p : Params) (s : State) : (s.handle p .tick).link = s.link :=
  (settle_link ..).trans (tick_link s)

/-- TxAccept writes nothing of the link but the TX log, to which it adds at most the offered byte (R35, R104). -/
theorem handle_txAccept_link (p : Params) (s : State) :
    (s.handle p .txAccept).link = s.link
    ∨ ∃ b, s.txbuf[s.txpos]? = some b
        ∧ (s.handle p .txAccept).link = { s.link with txlog := s.txlog ++ [b] } := by
  rw [State.handle, settle_link]
  rcases txAccept_cases s with ⟨-, h⟩ | ⟨b, hb, ⟨-, h⟩ | ⟨-, h⟩⟩ <;> rw [h]
  · exact .inl rfl
  · exact .inr ⟨b, hb, rfl⟩
  · exact .inr ⟨b, hb, sent_link _⟩

/-- A received byte writes nothing of the link but the overrun flag, which it sets when it finds the FIFO of an open
connection full (R28, R106). -/
theorem handle_rxByte_link (p : Params) (s : State) (b : Byte) :
    (¬(s.conn = .opened ∧ p.rxFifoDepth ≤ s.rxfifo.length) ∧ (s.handle p (.rxByte b)).link = s.link)
    ∨ (s.conn = .opened ∧ p.rxFifoDepth ≤ s.rxfifo.length
        ∧ (s.handle p (.rxByte b)).link = { s.link with rxOverrun := true }) := by
  rw [State.handle, settle_link]
  rcases rxByte_cases p s b with ⟨hc, h⟩ | ⟨ho, hl, h⟩ | ⟨ho, hl, h⟩ <;> rw [h]
  · exact .inl ⟨by simp [hc], rfl⟩
  · exact .inl ⟨fun hfull => absurd hfull.2 (Nat.not_le.2 hl), rfl⟩
  · exact .inr ⟨ho, hl, rfl⟩

/-- An event keeps the connection state, opens it by a successful OPEN, or closes it by an OPEN, CLOSE, a link failure
or reset (R21). -/
theorem handle_conn_cases (p : Params) {s : State} {e : Event} (he : e.enabled s.seq = true) :
    (s.handle p e).conn = s.conn
    ∨ (∃ baud, e = .issue (.openPort baud true) ∧ p.supportsBaud baud = true ∧ (s.handle p e).conn = .opened
        ∧ (s.handle p e).baud = some baud)
    ∨ ((s.handle p e).conn = .closed
        ∧ (e = .issue .closePort ∨ (∃ baud present, e = .issue (.openPort baud present)) ∨ e = .linkFail
          ∨ e = .reset)) := by
  cases e with
  | issue c =>
    have hs := issue_enabled.1 he
    rcases handle_issue_cases p c hs with ⟨baud, present, rfl, h⟩ | ⟨rfl, h⟩ | ⟨hf, h⟩ <;> rw [h]
    · rcases openPort_cases p s baud present with ⟨rfl, hb, ho⟩ | ⟨t, _, -, ho, hclosed, -⟩ <;> rw [ho]
      · exact .inr (.inl ⟨baud, rfl, hb, rfl, rfl⟩)
      · exact .inr (.inr ⟨hclosed, .inr (.inl ⟨baud, present, rfl⟩)⟩)
    · exact .inr (.inr ⟨rfl, .inl rfl⟩)
    · exact .inl (conn_of_link (issue_link hs hf))
  | txAccept =>
    rcases handle_txAccept_link p s with h | ⟨_, -, h⟩ <;> exact .inl (congrArg Link.conn h)
  | rxByte b =>
    rcases handle_rxByte_link p s b with ⟨-, h⟩ | ⟨-, -, h⟩ <;> exact .inl (congrArg Link.conn h)
  | tick => exact .inl (conn_of_link (handle_tick_link p s))
  | linkFail => simp
  | reset => simp

/-- An event keeps the overrun flag, sets it by a byte that finds the FIFO full, or clears it by a successful OPEN or by
reset (R28). -/
theorem handle_rxOverrun_cases (p : Params) {s : State} {e : Event} (he : e.enabled s.seq = true) :
    (s.handle p e).rxOverrun = s.rxOverrun
    ∨ ((s.handle p e).rxOverrun = true ∧ ∃ b, e = .rxByte b ∧ p.rxFifoDepth ≤ s.rxfifo.length)
    ∨ ((s.handle p e).rxOverrun = false
        ∧ (e = .reset ∨ ∃ baud, e = .issue (.openPort baud true) ∧ (s.handle p e).conn = .opened)) := by
  cases e with
  | issue c =>
    have hs := issue_enabled.1 he
    rcases handle_issue_cases p c hs with ⟨baud, present, rfl, h⟩ | ⟨-, h⟩ | ⟨hf, h⟩ <;> rw [h]
    · rcases openPort_cases p s baud present with ⟨rfl, -, ho⟩ | ⟨t, _, -, ho, -, hkept, -⟩ <;> rw [ho]
      · exact .inr (.inr ⟨rfl, .inr ⟨baud, rfl, rfl⟩⟩)
      · exact .inl hkept
    · exact .inl rfl
    · exact .inl (rxOverrun_of_link (issue_link hs hf))
  | txAccept =>
    rcases handle_txAccept_link p s with h | ⟨_, -, h⟩ <;> exact .inl (congrArg Link.rxOverrun h)
  | rxByte b =>
    rcases handle_rxByte_link p s b with ⟨-, h⟩ | ⟨-, hfull, h⟩
    · exact .inl (rxOverrun_of_link h)
    · exact .inr (.inl ⟨congrArg Link.rxOverrun h, b, rfl, hfull⟩)
  | tick => exact .inl (rxOverrun_of_link (handle_tick_link p s))
  | linkFail => simp
  | reset => simp

/-- Only TxAccept and reset write the TX log. -/
theorem handle_txlog_cases (p : Params) {s : State} {e : Event} (he : e.enabled s.seq = true) :
    (s.handle p e).txlog = s.txlog ∨ e = .txAccept ∨ e = .reset := by
  cases e with
  | issue c =>
    have hs := issue_enabled.1 he
    rcases handle_issue_cases p c hs with ⟨baud, present, -, h⟩ | ⟨-, h⟩ | ⟨hf, h⟩
    · rcases openPort_cases p s baud present with ⟨-, -, ho⟩ | ⟨t, _, -, ho, -, -, hlog, -⟩ <;> rw [h, ho]
      · exact .inl rfl
      · exact .inl hlog
    · exact .inl (h ▸ rfl)
    · exact .inl (txlog_of_link (h ▸ issue_link hs hf))
  | rxByte b =>
    rcases handle_rxByte_link p s b with ⟨-, h⟩ | ⟨-, -, h⟩ <;> exact .inl (congrArg Link.txlog h)
  | tick => exact .inl (txlog_of_link (handle_tick_link p s))
  | linkFail => simp
  | txAccept => simp
  | reset => simp

/-! ## The life of a command -/

/-- The command in progress goes on: the latched command and the results stay, and the frame of a command that is
still SENDING stays (R24, R25, R34). -/
structure State.GoesOn (s s' : State) : Prop where
  cur : s'.cur = s.cur
  result : s'.result = s.result
  results : s'.results = s.results
  txbuf : s'.seq = .sending → s.seq = .sending ∧ s'.txbuf = s.txbuf

/-- One result is posted, and the posting is the last thing that happens (R205). -/
def State.Ends (s s' : State) : Prop := ∃ (t : State) (r : Result), s' = t.post r ∧ t.results = s.results

/-- A command in progress goes on or ends in one posted result. -/
def State.Progresses (s s' : State) : Prop := s.GoesOn s' ∨ s.Ends s'

theorem State.GoesOn.refl (s : State) : s.GoesOn s := ⟨rfl, rfl, rfl, fun h => ⟨h, rfl⟩⟩

theorem State.GoesOn.trans {s t u : State} (h : s.GoesOn t) (h' : t.GoesOn u) : s.GoesOn u where
  cur := h'.cur.trans h.cur
  result := h'.result.trans h.result
  results := h'.results.trans h.results
  txbuf hu :=
    have ⟨ht, hbuf⟩ := h'.txbuf hu
    have ⟨hs, hbuf'⟩ := h.txbuf ht
    ⟨hs, hbuf.trans hbuf'⟩

theorem State.GoesOn.progresses {s t u : State} (h : s.GoesOn t) : t.Progresses u → s.Progresses u
  | .inl hgo => .inl (h.trans hgo)
  | .inr ⟨v, r, hu, hv⟩ => .inr ⟨v, r, hu, hv.trans h.results⟩

/-- A command that ended left its result in both places and every working element cleared (R205). -/
theorem State.Ends.clears {s s' : State} : s.Ends s' →
    ∃ r, s'.results = s.results ++ [r] ∧ s'.result = some r ∧ s'.seq = .idle ∧ s'.ready = true ∧ s'.cur = none
      ∧ s'.txbuf = [] ∧ s'.txpos = 0 ∧ s'.timer = 0 ∧ s'.heard = false ∧ s'.slot = 0 ∧ s'.slots = []
  | ⟨_, r, h, hres⟩ => ⟨r, by simp [h, hres, State.ready]⟩

theorem post_progresses (s : State) (r : Result) : s.Progresses (s.post r) := .inr ⟨s, r, rfl, rfl⟩

theorem nextSlot_progresses (s : State) (n : Nat) (sr : SlotResult) : s.Progresses (s.nextSlot n sr) := by
  unfold State.nextSlot
  split
  · exact post_progresses ..
  · exact .inl ⟨rfl, rfl, rfl, fun h => ⟨h, rfl⟩⟩

theorem resolve_progresses (s : State) (r : FrameResult) : s.Progresses (s.resolve r) := by
  rcases resolve_cases s r with h | ⟨_, _, _, h⟩ | ⟨_, _, _, _, _, _, _, h⟩ <;> rw [h]
  · exact .inl (.refl s)
  · exact post_progresses ..
  · exact nextSlot_progresses ..

theorem expire_progresses (s : State) : s.Progresses s.expire := by
  rcases expire_cases s with h | ⟨_, _, h⟩ | ⟨_, _, _, _, _, _, _, h⟩ <;> rw [h]
  · exact .inl (.refl s)
  · exact post_progresses ..
  · exact nextSlot_progresses ..

theorem sent_progresses (s : State) : s.Progresses s.sent := by
  cases hc : s.cur with
  | none =>
    have h : s.sent = s := by simp [State.sent, hc]
    exact .inl (h.symm ▸ .refl s)
  | some c =>
    rcases sent_cases hc with ⟨-, h⟩ | ⟨-, h⟩ <;> rw [h]
    · exact .inl ⟨rfl, rfl, rfl, nofun⟩
    · exact post_progresses ..

/-- Settle posts at most once: a posted result leaves IDLE, in which its loop stops (R145). -/
theorem settle_progresses (scanLimit : Nat) (s : State) : s.Progresses (s.settle scanLimit) := by
  refine settleLoop_induction (P := s.Progresses) ?_ _ s (.inl (.refl s))
  rintro t r n (hgo | ⟨u, q, rfl, -⟩) hawait -
  · exact hgo.progresses (State.GoesOn.progresses (t := { t with rxfifo := t.rxfifo.drop n })
      ⟨rfl, rfl, rfl, fun h => ⟨h, rfl⟩⟩ (resolve_progresses _ r))
  · simp at hawait

/-- The Settle that ends a step adds no second result. -/
theorem State.Progresses.settle {s t : State} (scanLimit : Nat) : s.Progresses t → s.Progresses (t.settle scanLimit)
  | .inl hgo => hgo.progresses (settle_progresses scanLimit t)
  | .inr ⟨u, r, ht, hu⟩ => .inr ⟨u, r, by rw [ht, settle_post], hu⟩

theorem txAccept_progresses (s : State) : s.Progresses s.txAccept := by
  have htaken (b : Byte) : s.GoesOn { s with txlog := s.txlog ++ [b], txpos := s.txpos + 1 } :=
    ⟨rfl, rfl, rfl, fun h => ⟨h, rfl⟩⟩
  rcases txAccept_cases s with ⟨-, h⟩ | ⟨b, -, ⟨-, h⟩ | ⟨-, h⟩⟩ <;> rw [h]
  · exact .inl (.refl s)
  · exact .inl (htaken b)
  · exact (htaken b).progresses (sent_progresses _)

theorem rxByte_progresses (p : Params) (s : State) (b : Byte) : s.Progresses (s.rxByte p b) := by
  rcases rxByte_cases p s b with ⟨-, h⟩ | ⟨-, -, h⟩ | ⟨-, -, h⟩ <;> rw [h] <;>
    exact .inl ⟨rfl, rfl, rfl, fun h => ⟨h, rfl⟩⟩

theorem tick_progresses (s : State) : s.Progresses s.tick := by
  have hcounted : s.GoesOn { s with timer := s.timer + 1 } := ⟨rfl, rfl, rfl, fun h => ⟨h, rfl⟩⟩
  rcases tick_cases s with ⟨-, h⟩ | ⟨-, -, h⟩ | ⟨-, -, h⟩ <;> rw [h]
  · exact .inl (.refl s)
  · exact .inl hcounted
  · exact hcounted.progresses (expire_progresses _)

/-- Every event but Issue and Reset lets the command in progress go on or ends it in one result. -/
theorem handle_progresses (p : Params) (s : State) {e : Event} (hi : ∀ c, e ≠ .issue c) (hr : e ≠ .reset) :
    s.Progresses (s.handle p e) := by
  cases e with
  | issue c => exact absurd rfl (hi c)
  | txAccept => exact (txAccept_progresses s).settle _
  | linkFail => exact .inr ⟨s.disconnect, .only .ioError, handle_linkFail p s, rfl⟩
  | rxByte b => exact (rxByte_progresses p s b).settle _
  | tick => exact (tick_progresses s).settle _
  | reset => exact absurd rfl hr

/-- An Issue step latches its command and posts nothing, or ends the command at once in one result (R141). -/
theorem handle_issue_latches_or_ends (p : Params) {s : State} (c : Command) (hs : s.seq = .idle) :
    ((s.handle p (.issue c)).cur = some c ∧ (s.handle p (.issue c)).result = s.result
        ∧ (s.handle p (.issue c)).results = s.results)
    ∨ s.Ends (s.handle p (.issue c)) := by
  rcases handle_issue_cases p c hs with ⟨baud, present, -, h⟩ | ⟨-, h⟩ | ⟨hf, h⟩ <;> rw [h]
  · rcases openPort_cases p s baud present with ⟨-, -, ho⟩ | ⟨t, code, -, ho, -, -, -, hres⟩
    · exact .inr ⟨_, _, ho, rfl⟩
    · exact .inr ⟨t, _, ho, hres⟩
  · exact .inr ⟨State.disconnect { s with cur := some .closePort }, _, rfl, rfl⟩
  · rcases issue_cases hs hf with ⟨-, h⟩ | ⟨-, -, h⟩ | ⟨-, -, -, h⟩ | ⟨-, -, _, -, -, h⟩
    · exact .inr ⟨_, _, h, rfl⟩
    · exact .inr ⟨_, _, h, rfl⟩
    · exact .inr ⟨_, _, h, rfl⟩
    · rw [h]
      exact .inl ⟨rfl, rfl, rfl⟩

/-! ## The obligations -/

/-- Settles O51: a line event goes on with the command or ends it in one posted result, Settle included
(`handle_progresses`); an Issue latches or ends (`handle_issue_latches_or_ends`); what writes the TX log is
`handle_txlog_cases`. -/
theorem onlyPostEndsACommand : Obligations.OnlyPostEndsACommand := by
  unfold Obligations.OnlyPostEndsACommand
  intro p s e he hreset
  refine ⟨?_, ?_⟩
  · by_cases hi : ∃ c, e = .issue c
    · obtain ⟨c, rfl⟩ := hi
      have hs := issue_enabled.1 he
      rcases handle_issue_latches_or_ends p c hs with ⟨hcur, hresult, hresults⟩ | h
      · exact .inl ⟨hresults, hresult, by simp [hcur], by simp [hs], fun _ => .inr ⟨c, rfl, hcur⟩, by simp [hs]⟩
      · exact .inr h.clears
    · rcases handle_progresses p s (fun c hc => hi ⟨c, hc⟩) hreset with h | h
      · exact .inl ⟨h.results, h.result, by simp [h.cur], fun _ => h.cur, fun _ => .inl h.cur,
          fun _ h' => (h.txbuf h').2⟩
      · exact .inr h.clears
  · rcases handle_txlog_cases p he with h | rfl | rfl
    · exact .inl h
    · rcases handle_txAccept_link p s with h | ⟨b, hb, h⟩
      · exact .inl (txlog_of_link h)
      · exact .inr ⟨b, rfl, congrArg Link.txlog h, hb⟩
    · exact absurd rfl hreset

/-- Settles O33: the first and the last clause read off `handle_conn_cases`; CLOSE, a link failure and reset close by
their own rules. -/
theorem onlyOpenOpensTheConnection : Obligations.OnlyOpenOpensTheConnection := by
  unfold Obligations.OnlyOpenOpensTheConnection
  intro p s e he
  refine ⟨fun hc ho => ?_, ?_, fun ho hc => ?_⟩
  · rcases handle_conn_cases p he with h | ⟨baud, rfl, hb, -, hbaud⟩ | ⟨h, -⟩
    · simp [h, hc] at ho
    · exact ⟨baud, rfl, hb, hbaud⟩
    · simp [h] at ho
  · rintro (rfl | rfl | rfl)
    · rw [handle_issue_closePort p (issue_enabled.1 he)]
      rfl
    · simp
    · simp
  · rcases handle_conn_cases p he with h | ⟨_, -, -, h, -⟩ | ⟨-, h⟩
    · simp [h, ho] at hc
    · simp [h] at hc
    · exact h

/-- Settles O39: what changes the flag reads off `handle_rxOverrun_cases`; that a byte at a full FIFO sets it is
`handle_rxByte_link`, and that an OPEN that opens clears it is `openPort_cases`. -/
theorem overrunFlagIsSticky : Obligations.OverrunFlagIsSticky := by
  unfold Obligations.OverrunFlagIsSticky
  intro p s e he
  refine ⟨?_, fun hf ht => ?_, ?_, fun ht hf => ?_⟩
  · rintro b rfl hopen hfull
    rcases handle_rxByte_link p s b with ⟨hnot, -⟩ | ⟨-, -, h⟩
    · exact absurd ⟨hopen, hfull⟩ hnot
    · exact congrArg Link.rxOverrun h
  · rcases handle_rxOverrun_cases p he with h | ⟨-, h⟩ | ⟨h, -⟩
    · simp [h, hf] at ht
    · exact h
    · simp [h] at ht
  · rintro (rfl | ⟨baud, present, rfl, hopen⟩)
    · simp
    · rw [handle_issue_openPort p baud present (issue_enabled.1 he)] at hopen ⊢
      rcases openPort_cases p s baud present with ⟨-, -, h⟩ | ⟨t, _, -, h, hclosed, -⟩
      · simp [h]
      · simp [h, hclosed] at hopen
  · rcases handle_rxOverrun_cases p he with h | ⟨h, -⟩ | ⟨-, h⟩
    · simp [h, ht] at hf
    · simp [h] at hf
    · exact h

/-- Settles O13: Reset is enabled in every state, so it is the event taken, and the engine it leaves needs no
Settle. -/
theorem resetEventGivesResetValues : Obligations.ResetEventGivesResetValues := by
  unfold Obligations.ResetEventGivesResetValues
  refine ⟨fun p s rest => ⟨rest, ?_⟩, [], rfl⟩
  have htaken : takeEnabled s.seq (.reset :: rest) = some (.reset, rest) := rfl
  simp only [stepIn, htaken, perform_eq_handle, handle_reset]
  rfl

/-- Settles O14: each output is read off the sequencer state. -/
theorem outputsFollowTheSequencer : Obligations.OutputsFollowTheSequencer := by
  unfold Obligations.OutputsFollowTheSequencer
  intro s
  refine ⟨by simp [State.ready], by simp [State.txEn], fun b hs => ?_⟩
  simp [State.txData, hs]

end Sys2Proof.Machine
end

-- The opcode table and the status flags.
section
/-! SUPPORT. Which instruction bytes select a row of the table (30_encoding.md R74, R75) and which bits of a status byte
its named flags are (R80). -/

namespace Sys2Proof

/-! ## The opcode table -/

/-- Each row is found by its own code, so no row before it in the table has the same code (R74). -/
@[simp] theorem opcodeOf?_code (o : Opcode) : opcodeOf? o.code = some o := by
  cases o <;> rfl

theorem opcodeOf?_eq_some_iff {b : Byte} {o : Opcode} : opcodeOf? b = some o ↔ b = o.code := by
  constructor
  · intro h
    have hcode : (o.code == b) = true := List.find?_some (p := fun o => Opcode.code o == b) h
    exact (beq_iff_eq.1 hcode).symm
  · rintro rfl
    exact opcodeOf?_code o

theorem opcodeOf?_eq_none_iff {b : Byte} : opcodeOf? b = none ↔ ∀ o ∈ Opcode.all, o.code ≠ b := by
  simp [opcodeOf?]

/-- The bytes that are no row's code are the four gaps between the codes, as R75 lists them. -/
theorem forall_code_ne_iff {b : Byte} : (∀ o ∈ Opcode.all, o.code ≠ b) ↔
    b = 0x00 ∨ b = 0x07 ∨ (0x0C ≤ b.toNat ∧ b.toNat ≤ 0x81) ∨ 0x84 ≤ b.toNat := by
  simp only [Opcode.all, Opcode.code, List.forall_mem_cons, List.not_mem_nil, false_imp_iff, implies_true, and_true,
    ne_eq, ← BitVec.toNat_inj, BitVec.reduceToNat]
  omega

end Sys2Proof

namespace Sys2Proof.Machine

/-! ## The status flags -/

/-- A flag is set exactly when the mask of its one bit meets the status byte. -/
theorem hasFlag_iff_and_twoPow {status : Byte} {f : StatusFlag} :
    hasFlag status f = true ↔ status &&& BitVec.twoPow 8 f.bit ≠ 0 := by
  have hmask : BitVec.twoPow 8 f.bit ≠ 0#8 := by cases f <;> decide
  simp [hasFlag, BitVec.and_twoPow, hmask]

/-! ## The obligations -/

/-- Settles O4: a byte selects a row exactly when it is the row's code (`opcodeOf?_eq_some_iff`), and the bytes that are
no row's code are R75's four gaps (`forall_code_ne_iff`). -/
theorem unassignedCodesSelectNoRow : Obligations.UnassignedCodesSelectNoRow := by
  unfold Obligations.UnassignedCodesSelectNoRow
  exact ⟨fun _ _ => opcodeOf?_eq_some_iff, fun _ => opcodeOf?_eq_none_iff.trans forall_code_ne_iff⟩

/-- Settles O52: each mask of the table is the power of two at its flag's bit (`hasFlag_iff_and_twoPow`). -/
theorem statusFlagsAreTheTableBits : Obligations.StatusFlagsAreTheTableBits := by
  unfold Obligations.StatusFlagsAreTheTableBits
  intro status
  exact ⟨hasFlag_iff_and_twoPow (f := .voltage), hasFlag_iff_and_twoPow (f := .encoder),
    hasFlag_iff_and_twoPow (f := .temperature), hasFlag_iff_and_twoPow (f := .current),
    hasFlag_iff_and_twoPow (f := .overload)⟩

end Sys2Proof.Machine
end

-- The rules of the transport.
section
/-! SUPPORT. What each event leaves, as a whole state: OPEN and CLOSE (40_transport.md R101 to R103), TxAccept (R104),
RxByte (R106), Tick (R109, 42_transactions.md R148, 43_group.md R188), LinkFail (R110). -/

namespace Sys2Proof.Machine

/-! ## The words of the statements and the model's own -/

/-- R144's table of the commands that await a response, and the model's. -/
theorem awaits_iff_opensWindow {c : Command} : awaits c = true ↔ opensWindow c := by
  have hbroadcast {id : Byte} {e : Expectation} (he : e ≠ .noResponse) :
      (unlessBroadcast id e != .noResponse) = true ↔ id ≠ 0xFE := by
    by_cases hid : id = 0xFE <;> simp [unlessBroadcast, hid, he]
  cases c with
  | ping | read | write | regWrite | action | txn => exact hbroadcast nofun
  | openPort | closePort | reboot | syncWrite | syncRead => simp [awaits, expectation, opensWindow]

theorem timeoutOf_eq_timeoutOperand (c : Command) : timeoutOf c = timeoutOperand c := by
  cases c <;> rfl

theorem not_isEmpty_eq_decide (l : List Byte) : (!l.isEmpty) = decide (l ≠ []) := by
  cases l <;> rfl

/-! ## Issue -/

/-- In IDLE the working elements are clear, so Post changes the result and the result log only (R38, R205). -/
theorem post_of_idle {p : Params} {s : State} (hinv : EngineInv p s) (hs : s.seq = .idle) (r : Result) :
    s.post r = { s with result := some r, results := s.results ++ [r] } := by
  have hcur := hinv.cur_none_iff.2 hs
  obtain ⟨hbuf, hpos⟩ := hinv.txbuf_nil (by simp [hs])
  have htimer := hinv.timer_zero (by simp [hs])
  have hheard := hinv.heard_false (by simp [hs])
  obtain ⟨hslot, hslots⟩ := hinv.slots_nil (by simp [hs])
  cases s
  simp_all [State.post]

/-- A busy engine takes no command of any kind: the host keeps it. -/
theorem handle_issue_busy (p : Params) {s : State} (c : Command) (hs : s.seq ≠ .idle) :
    s.handle p (.issue c) = { s with inbox := .issue c :: s.inbox } := by
  cases c with
  | openPort | closePort => exact if_neg hs
  | _ => exact issue_busy hs

/-- OPEN of an absent port fails, after it closed an open connection (R101). -/
theorem openPort_absent (p : Params) (s : State) (baud : Nat) :
    s.openPort p baud false
      = State.post (if s.conn = .opened then s.disconnect else s) (.only .portUnavailable) := by
  by_cases hc : s.conn = .opened <;> simp only [State.openPort, hc, Bool.not_false, if_true, if_false] <;> rfl

/-- OPEN at a rate the port does not support fails, after it closed an open connection (R101). -/
theorem openPort_unsupported {p : Params} (s : State) {baud : Nat} (hb : p.supportsBaud baud = false) :
    s.openPort p baud true
      = State.post (if s.conn = .opened then s.disconnect else s) (.only .unsupportedBaud) := by
  by_cases hc : s.conn = .opened <;>
    simp only [State.openPort, hc, hb, Bool.not_true, Bool.false_eq_true, Bool.not_false, if_true, if_false] <;> rfl

/-! ## TxAccept -/

theorem txAccept_of_more {s : State} {b : Byte} (hb : s.txbuf[s.txpos]? = some b)
    (hl : s.txpos + 1 ≠ s.txbuf.length) :
    s.txAccept = { s with txlog := s.txlog ++ [b], txpos := s.txpos + 1 } := by
  simp [State.txAccept, hb, hl]

theorem txAccept_of_last {s : State} {b : Byte} (hb : s.txbuf[s.txpos]? = some b)
    (hl : s.txpos + 1 = s.txbuf.length) :
    s.txAccept = State.sent { s with txlog := s.txlog ++ [b], txpos := s.txpos + 1 } := by
  simp [State.txAccept, hb, hl]

/-- While bytes remain, a taken byte leaves the engine in SENDING, where no Settle runs. -/
theorem handle_txAccept_of_more (p : Params) {s : State} {b : Byte} (hs : s.seq = .sending)
    (hb : s.txbuf[s.txpos]? = some b) (hl : s.txpos + 1 ≠ s.txbuf.length) :
    s.handle p .txAccept = { s with txlog := s.txlog ++ [b], txpos := s.txpos + 1 } := by
  rw [State.handle, txAccept_of_more hb hl]
  exact settle_of_not_await (by simp [hs])

/-! ## RxByte -/

theorem rxByte_of_closed (p : Params) {s : State} (b : Byte) (hc : s.conn = .closed) : s.rxByte p b = s := if_pos hc

theorem rxByte_of_room {p : Params} {s : State} (b : Byte) (ho : s.conn = .opened)
    (hl : s.rxfifo.length < p.rxFifoDepth) :
    s.rxByte p b = { s with heard := s.heard || s.seq == .await, rxfifo := s.rxfifo ++ [b] } := by
  rcases rxByte_cases p s b with ⟨hc, -⟩ | ⟨-, -, h⟩ | ⟨-, hfull, -⟩
  · simp [ho] at hc
  · exact h
  · exact absurd hl (Nat.not_lt.2 hfull)

theorem rxByte_of_full {p : Params} {s : State} (b : Byte) (ho : s.conn = .opened)
    (hl : p.rxFifoDepth ≤ s.rxfifo.length) :
    s.rxByte p b = { s with heard := s.heard || s.seq == .await, rxOverrun := true } := by
  rcases rxByte_cases p s b with ⟨hc, -⟩ | ⟨-, hroom, -⟩ | ⟨-, -, h⟩
  · simp [ho] at hc
  · exact absurd hl (Nat.not_le.2 hroom)
  · exact h

@[simp] theorem rxByte_seq (p : Params) (s : State) (b : Byte) : (s.rxByte p b).seq = s.seq := by
  rcases rxByte_cases p s b with ⟨-, h⟩ | ⟨-, -, h⟩ | ⟨-, -, h⟩ <;> rw [h]

theorem handle_rxByte_of_not_await (p : Params) {s : State} (b : Byte) (hs : s.seq ≠ .await) :
    s.handle p (.rxByte b) = s.rxByte p b := settle_of_not_await (by simpa using hs)

/-- A byte is heard in a window, and only there (R30, R106). -/
theorem heard_or_of_not_await {s : State} (hs : s.seq ≠ .await) : (s.heard || s.seq == .await) = s.heard := by
  simp [hs]

theorem heard_or_of_await {s : State} (hs : s.seq = .await) : (s.heard || s.seq == .await) = true := by
  simp [hs]

/-! ## Tick -/

theorem handle_tick_of_not_await (p : Params) {s : State} (hs : s.seq ≠ .await) : s.handle p .tick = s := by
  have htick : s.tick = s := if_neg hs
  rw [State.handle, htick, settle_of_not_await hs]

@[simp] theorem nextSlot_rxfifo (s : State) (n : Nat) (sr : SlotResult) :
    (s.nextSlot n sr).rxfifo = s.rxfifo := by
  unfold State.nextSlot
  split <;> rfl

@[simp] theorem expire_rxfifo (s : State) : s.expire.rxfifo = s.rxfifo := by
  rcases expire_cases s with h | ⟨_, _, h⟩ | ⟨_, _, _, _, _, _, _, h⟩ <;> simp [h]

/-- In a window in which nothing is decodable, a tick before the timeout only counts. -/
theorem handle_tick_before_timeout {p : Params} {s : State} {c : Command} {t : Ticks} (hs : s.seq = .await)
    (hinc : decodeResponse p.scanLimit s.rxfifo = .incomplete) (hc : s.cur = some c) (ht : timeoutOf c = some t)
    (hl : (s.timer + 1).toNat < t.toNat) : s.handle p .tick = { s with timer := s.timer + 1 } := by
  have htick : s.tick = { s with timer := s.timer + 1 } := by
    simp only [State.tick, if_pos hs, hc, Option.bind_some, ht, if_neg (Nat.not_le.2 hl)]
  rw [State.handle, htick]
  exact settle_of_incomplete hinc

/-- In a window in which nothing is decodable, the tick that reaches the timeout lets it expire; the FIFO stays, so
Settle finds nothing. -/
theorem handle_tick_at_timeout {p : Params} {s : State} {c : Command} {t : Ticks} (hs : s.seq = .await)
    (hinc : decodeResponse p.scanLimit s.rxfifo = .incomplete) (hc : s.cur = some c) (ht : timeoutOf c = some t)
    (hl : t.toNat ≤ (s.timer + 1).toNat) : s.handle p .tick = State.expire { s with timer := s.timer + 1 } := by
  have htick : s.tick = State.expire { s with timer := s.timer + 1 } := by
    simp only [State.tick, if_pos hs, hc, Option.bind_some, ht, if_pos hl]
  rw [State.handle, htick]
  exact settle_of_incomplete (by rw [expire_rxfifo]; exact hinc)

theorem expire_of_ping {s : State} {id : Byte} {t : Ticks} (hc : s.cur = some (.ping id t)) :
    s.expire = s.post (.only .notResponding) := by
  simp [State.expire, hc]

theorem expire_of_syncRead {s : State} {addr len id : Byte} {ids : List Byte} {t : Ticks}
    (hc : s.cur = some (.syncRead addr len ids t)) (hid : ids[s.slot]? = some id) :
    s.expire = s.nextSlot ids.length (.only id (expiryCode s.heard)) := by
  simp [State.expire, hc, hid]

theorem expire_of_other {s : State} {c : Command} (hc : s.cur = some c) (hping : ∀ id t, c ≠ .ping id t)
    (hsync : ∀ addr len ids t, c ≠ .syncRead addr len ids t) :
    s.expire = s.post (.only (expiryCode s.heard)) := by
  cases c with
  | ping id t => exact absurd rfl (hping id t)
  | syncRead addr len ids t => exact absurd rfl (hsync addr len ids t)
  | _ => simp only [State.expire, hc]

theorem nextSlot_of_last {s : State} {n : Nat} (h : s.slot + 1 = n) (sr : SlotResult) :
    s.nextSlot n sr = s.post ⟨.ok, none, [], s.slots ++ [sr]⟩ := if_pos h

theorem nextSlot_of_more {s : State} {n : Nat} (h : s.slot + 1 ≠ n) (sr : SlotResult) :
    s.nextSlot n sr
      = { s with slots := s.slots ++ [sr], slot := s.slot + 1, timer := 0, heard := decide (s.rxfifo ≠ []) } := by
  rw [← not_isEmpty_eq_decide]
  exact if_neg h

/-! ## The timer -/

/-- The count of ticks stays or starts again (R29). -/
def State.TimerKept (s s' : State) : Prop := s'.timer = s.timer ∨ s'.timer = 0

theorem State.TimerKept.trans {s t u : State} (h : s.TimerKept t) : t.TimerKept u → s.TimerKept u
  | .inl h' => h.imp h'.trans h'.trans
  | .inr h' => .inr h'

@[simp] theorem nextSlot_timer (s : State) (n : Nat) (sr : SlotResult) : (s.nextSlot n sr).timer = 0 := by
  unfold State.nextSlot
  split <;> rfl

theorem resolve_timerKept (s : State) (r : FrameResult) : s.TimerKept (s.resolve r) := by
  rcases resolve_cases s r with h | ⟨_, _, _, h⟩ | ⟨_, _, _, _, _, _, _, h⟩ <;> rw [h]
  · exact .inl rfl
  · exact .inr rfl
  · exact .inr (nextSlot_timer ..)

theorem settle_timerKept (scanLimit : Nat) (s : State) : s.TimerKept (s.settle scanLimit) :=
  settleLoop_induction (P := s.TimerKept)
    (fun t r n h _ _ => h.trans (resolve_timerKept { t with rxfifo := t.rxfifo.drop n } r)) _ s (.inl rfl)

theorem expire_timerKept (s : State) : s.TimerKept s.expire := by
  rcases expire_cases s with h | ⟨_, _, h⟩ | ⟨_, _, _, _, _, _, _, h⟩ <;> rw [h]
  · exact .inl rfl
  · exact .inr rfl
  · exact .inr (nextSlot_timer ..)

theorem sent_timerKept (s : State) : s.TimerKept s.sent := by
  cases hc : s.cur with
  | none =>
    have h : s.sent = s := by simp [State.sent, hc]
    exact .inl (by rw [h])
  | some c => rcases sent_cases hc with ⟨-, h⟩ | ⟨-, h⟩ <;> rw [h] <;> exact .inr rfl

theorem txAccept_timerKept (s : State) : s.TimerKept s.txAccept := by
  rcases txAccept_cases s with ⟨-, h⟩ | ⟨b, -, ⟨-, h⟩ | ⟨-, h⟩⟩ <;> rw [h]
  · exact .inl rfl
  · exact .inl rfl
  · exact sent_timerKept { s with txlog := s.txlog ++ [b], txpos := s.txpos + 1 }

theorem rxByte_timerKept (p : Params) (s : State) (b : Byte) : s.TimerKept (s.rxByte p b) := by
  rcases rxByte_cases p s b with ⟨-, h⟩ | ⟨-, -, h⟩ | ⟨-, -, h⟩ <;> rw [h] <;> exact .inl rfl

theorem handle_issue_timerKept (p : Params) (s : State) (c : Command) :
    s.TimerKept (s.handle p (.issue c)) := by
  by_cases hs : s.seq = .idle
  · rcases handle_issue_cases p c hs with ⟨baud, present, -, h⟩ | ⟨-, h⟩ | ⟨hf, h⟩ <;> rw [h]
    · rcases openPort_cases p s baud present with ⟨-, -, h⟩ | ⟨_, _, -, h, -⟩ <;> rw [h] <;> exact .inr rfl
    · exact .inr rfl
    · rcases issue_cases hs hf with ⟨-, h⟩ | ⟨-, -, h⟩ | ⟨-, -, -, h⟩ | ⟨-, -, _, -, -, h⟩ <;> rw [h]
      · exact .inr rfl
      · exact .inr rfl
      · exact .inr rfl
      · exact .inl rfl
  · rw [handle_issue_busy p c hs]
    exact .inl rfl

/-- Only a tick in AWAIT raises the count, and by one (R109). -/
theorem handle_tick_timer (p : Params) (s : State) :
    s.TimerKept (s.handle p .tick) ∨ (s.seq = .await ∧ (s.handle p .tick).timer = s.timer + 1) := by
  by_cases hs : s.seq = .await
  · have hcounted : State.TimerKept { s with timer := s.timer + 1 } s.tick := by
      rcases tick_cases s with ⟨hn, -⟩ | ⟨-, -, h⟩ | ⟨-, -, h⟩
      · exact absurd hs hn
      · rw [h]
        exact .inl rfl
      · rw [h]
        exact expire_timerKept _
    rcases hcounted.trans (settle_timerKept p.scanLimit _) with h | h
    · exact .inr ⟨hs, h⟩
    · exact .inl (.inr h)
  · rw [handle_tick_of_not_await p hs]
    exact .inl (.inl rfl)

theorem handle_timer_cases (p : Params) (s : State) (e : Event) :
    s.TimerKept (s.handle p e) ∨ (e = .tick ∧ s.seq = .await ∧ (s.handle p e).timer = s.timer + 1) := by
  cases e with
  | issue c => exact .inl (handle_issue_timerKept p s c)
  | txAccept => exact .inl ((txAccept_timerKept s).trans (settle_timerKept ..))
  | rxByte b => exact .inl ((rxByte_timerKept p s b).trans (settle_timerKept ..))
  | tick => exact (handle_tick_timer p s).imp_right fun h => ⟨rfl, h⟩
  | linkFail => exact .inl (.inr (by simp))
  | reset => exact .inl (.inr (by simp))

/-! ## Waiting in SENDING -/

/-- While the UART takes no byte, what happens in SENDING touches the receive side only (R106, R114). -/
theorem handle_in_sending (p : Params) {s : State} {e : Event} (hs : s.seq = .sending)
    (he : e.enabled .sending = true) (htx : e ≠ .txAccept) (hlf : e ≠ .linkFail) (hr : e ≠ .reset) :
    ∃ fifo overrun, s.handle p e = { s with rxfifo := fifo, rxOverrun := overrun } := by
  have hna : s.seq ≠ .await := by simp [hs]
  cases e with
  | issue c => simp [Event.enabled] at he
  | txAccept => exact absurd rfl htx
  | linkFail => exact absurd rfl hlf
  | rxByte b =>
    rw [handle_rxByte_of_not_await p b hna]
    rcases rxByte_cases p s b with ⟨-, h⟩ | ⟨-, -, h⟩ | ⟨-, -, h⟩
    · exact ⟨s.rxfifo, s.rxOverrun, h⟩
    · exact ⟨s.rxfifo ++ [b], s.rxOverrun, by rw [h, heard_or_of_not_await hna]⟩
    · exact ⟨s.rxfifo, true, by rw [h, heard_or_of_not_await hna]⟩
  | tick => exact ⟨s.rxfifo, s.rxOverrun, handle_tick_of_not_await p hna⟩
  | reset => exact absurd rfl hr

theorem foldl_handle_in_sending (p : Params) (events : List Event) {s : State} (hs : s.seq = .sending)
    (hev : ∀ e ∈ events, e.enabled .sending = true ∧ e ≠ .txAccept ∧ e ≠ .linkFail ∧ e ≠ .reset) :
    ∃ fifo overrun, events.foldl (State.handle p) s = { s with rxfifo := fifo, rxOverrun := overrun } := by
  induction events generalizing s with
  | nil => exact ⟨s.rxfifo, s.rxOverrun, rfl⟩
  | cons e es ih =>
    obtain ⟨⟨he, htx, hlf, hr⟩, hes⟩ := List.forall_mem_cons.1 hev
    obtain ⟨fifo, overrun, h⟩ := handle_in_sending p hs he htx hlf hr
    rw [List.foldl_cons, h]
    exact ih (s := { s with rxfifo := fifo, rxOverrun := overrun }) hs hes

/-- The byte that leaves SENDING is the frame's last, and the bytes before it are already on the line (R38, R104). -/
theorem handle_txAccept_sent_whole {p : Params} {s : State} (hinv : EngineInv p s) (hs : s.seq = .sending)
    (hleft : (s.handle p .txAccept).seq ≠ .sending) :
    ∃ sent, (s.handle p .txAccept).txlog = sent ++ s.txbuf := by
  obtain ⟨-, hpos⟩ := hinv.sending_iff.1 hs
  have hb : s.txbuf[s.txpos]? = some s.txbuf[s.txpos] := List.getElem?_eq_getElem hpos
  have hlast : s.txpos + 1 = s.txbuf.length := by
    by_contra hl
    rw [handle_txAccept_of_more p hs hb hl] at hleft
    exact hleft hs
  obtain ⟨before, hlog⟩ := hinv.txlog_sent
  refine ⟨before, ?_⟩
  calc (s.handle p .txAccept).txlog
      = s.txlog ++ [s.txbuf[s.txpos]] := by
        rw [State.handle, txAccept_of_last hb hlast]
        exact (txlog_of_link (settle_link ..)).trans (txlog_of_link (sent_link _))
    _ = before ++ s.txbuf.take (s.txpos + 1) := by
        rw [hlog, List.append_assoc, List.take_append_getElem hpos]
    _ = before ++ s.txbuf := by rw [hlast, List.take_length]

/-! ## The obligations -/

/-- Settles O25: the first check of validation answers (`issue_cases`), and Post in IDLE clears what is clear
(`post_of_idle`). -/
theorem closedEngineAnswersNotOpen : Obligations.ClosedEngineAnswersNotOpen := by
  unfold Obligations.ClosedEngineAnswersNotOpen
  intro p s c hinv hs hclosed hopen hclose
  have hissue : s.handle p (.issue c) = s.post (.only .notOpen) := by
    rcases handle_issue_cases p c hs with ⟨baud, present, rfl, -⟩ | ⟨rfl, -⟩ | ⟨hf, h⟩
    · exact absurd rfl (hopen baud present)
    · exact absurd rfl hclose
    · rw [h]
      rcases issue_cases hs hf with ⟨-, h⟩ | ⟨ho, -⟩ | ⟨ho, -⟩ | ⟨ho, -⟩
      · exact h
      all_goals simp [hclosed] at ho
  rw [hissue]
  exact post_of_idle hinv hs _

/-- Settles O31: one lemma per failure of OPEN; the success is `openPort_cases`. -/
theorem openFollowsItsRule : Obligations.OpenFollowsItsRule := by
  unfold Obligations.OpenFollowsItsRule
  intro p s baud present hs
  dsimp only
  rw [handle_issue_openPort p baud present hs]
  refine ⟨?_, ?_, ?_⟩
  · rintro rfl
    exact openPort_absent p s baud
  · rintro rfl hb
    exact openPort_unsupported s hb
  · rintro rfl hb
    rcases openPort_cases p s baud true with ⟨-, -, h⟩ | ⟨_, _, hfails, -⟩
    · exact h
    · simp [hb] at hfails

/-- Settles O32: CLOSE never asks whether the connection is open, and it ends in IDLE, where the second CLOSE is
taken. -/
theorem closeIsIdempotent : Obligations.CloseIsIdempotent := by
  unfold Obligations.CloseIsIdempotent
  intro p s hs
  dsimp only
  rw [handle_issue_closePort p hs, handle_issue_closePort p (s := s.closePort) rfl]
  exact ⟨rfl, rfl⟩

/-- Settles O34: `txAccept_of_last` and the two outcomes of Sent (`sent_cases`), with R144's table read as `awaits`
(`awaits_iff_opensWindow`). -/
theorem txAcceptFollowsItsRule : Obligations.TxAcceptFollowsItsRule := by
  unfold Obligations.TxAcceptFollowsItsRule
  intro p s b hs hb
  refine ⟨fun hl => handle_txAccept_of_more p hs hb (Nat.ne_of_lt hl), fun c hl hc => ?_⟩
  simp only [← awaits_iff_opensWindow, ← not_isEmpty_eq_decide, State.handle, txAccept_of_last hb hl]
  rcases sent_cases (s := { s with txlog := s.txlog ++ [b], txpos := s.txpos + 1 }) hc with ⟨ha, h⟩ | ⟨ha, h⟩ <;>
    rw [h]
  · exact ⟨fun _ => ⟨rfl, fun hinc => settle_of_incomplete hinc⟩, fun hn => absurd ha hn⟩
  · rw [settle_post]
    exact ⟨fun hw => absurd hw (by simp [ha]), fun _ => rfl⟩

/-- Settles O36: the byte that ends SENDING completes the frame (`handle_txAccept_sent_whole`); an event that is no
TxAccept, link failure or reset stays in SENDING (`handle_in_sending`). -/
theorem sendingEndsWithTheWholeFrameOrIoError : Obligations.SendingEndsWithTheWholeFrameOrIoError := by
  unfold Obligations.SendingEndsWithTheWholeFrameOrIoError
  intro p s e hinv hs he hleft
  by_cases htx : e = .txAccept
  · subst htx
    exact .inl ⟨rfl, handle_txAccept_sent_whole hinv hs hleft⟩
  by_cases hlf : e = .linkFail
  · subst hlf
    exact .inr (.inl ⟨rfl, by rw [handle_linkFail]; rfl⟩)
  by_cases hr : e = .reset
  · subst hr
    exact .inr (.inr ⟨rfl, by simp⟩)
  obtain ⟨_, _, h⟩ := handle_in_sending p hs (hs ▸ he) htx hlf hr
  rw [h] at hleft
  exact absurd hs hleft

/-- Settles O37: by induction on the events, only the receive side changes (`foldl_handle_in_sending`). -/
theorem transmitHangIsKept : Obligations.TransmitHangIsKept := by
  unfold Obligations.TransmitHangIsKept
  intro p events s hs hev
  obtain ⟨fifo, overrun, h⟩ := foldl_handle_in_sending p events hs hev
  simp [h, hs, State.ready]

/-- Settles O38: what becomes of the byte is one lemma per case of R106; no Settle runs outside a window, and none
changes a FIFO that needs more bytes. -/
theorem receivedByteFollowsItsRule : Obligations.ReceivedByteFollowsItsRule := by
  unfold Obligations.ReceivedByteFollowsItsRule
  intro p s b
  refine ⟨fun hs => ?_, fun hs ho => ?_⟩
  · rw [handle_rxByte_of_not_await p b hs]
    refine ⟨rxByte_of_closed p b, fun ho hroom => ?_, fun ho hfull => ?_⟩
    · rw [rxByte_of_room b ho hroom, heard_or_of_not_await hs]
    · rw [rxByte_of_full b ho hfull, heard_or_of_not_await hs]
  · refine ⟨fun hroom => ?_, fun hfull => ?_⟩
    · rw [State.handle, rxByte_of_room b ho hroom, heard_or_of_await hs]
      exact ⟨rfl, settle_of_incomplete⟩
    · rw [State.handle, rxByte_of_full b ho hfull, heard_or_of_await hs]

/-- Settles O40: after Post no Settle runs (`handle_linkFail`). -/
theorem linkFailureIsFatal : Obligations.LinkFailureIsFatal := by
  unfold Obligations.LinkFailureIsFatal
  intro p s
  refine ⟨by simp [Event.enabled], ?_⟩
  rw [handle_linkFail]
  rfl

/-- Settles O41: what writes the timer is `handle_timer_cases`; a tick in a window counts or lets it expire
(`handle_tick_before_timeout`, `handle_tick_at_timeout`), and how it expires is one lemma per kind of command. -/
theorem tickFollowsItsRule : Obligations.TickFollowsItsRule := by
  unfold Obligations.TickFollowsItsRule
  intro p s
  refine ⟨fun e => or_assoc.1 (handle_timer_cases p s e), handle_tick_of_not_await p, fun c t hs hinc hc ht => ?_⟩
  rw [← timeoutOf_eq_timeoutOperand] at ht
  refine ⟨handle_tick_before_timeout hs hinc hc ht, fun hl => ?_⟩
  rw [handle_tick_at_timeout hs hinc hc ht hl]
  refine ⟨fun hsync => ?_, ?_⟩
  · cases c with
    | ping id u => exact expire_of_ping hc
    | _ => exact expire_of_other hc nofun hsync
  · rintro addr len ids id rfl hid
    rw [expire_of_syncRead (s := { s with timer := s.timer + 1 }) hc hid]
    exact ⟨fun hlast => nextSlot_of_last hlast _, fun hmore => nextSlot_of_more hmore _⟩

end Sys2Proof.Machine
end

-- The frame codec, by index.
section
/-! SUPPORT. The frame codec by index: the size limit and the sum of a frame (41_codec.md R122, R124), the least
confirmed sync (R125), the response decoder (R126, R127, R134) and what one flipped bit does to it (R135). -/

namespace Sys2Proof

/-! ## The checksum as a sum (R122) -/

/-- Comparing the checksum byte is the same as checking the sum from ID through CHECKSUM. -/
theorem sumBytes_eq_255_iff {id len b4 c : Byte} {params : List Byte} :
    sumBytes ([id, len, b4] ++ params ++ [c]) % 256 = 255 ↔ c = checksum id len b4 params := by
  have hc := c.isLt
  rw [← BitVec.toNat_inj, checksum_toNat]
  simp only [sumBytes_append, sumBytes_cons, sumBytes_nil]
  omega

theorem sumBytes_frame (w : Wire) : sumBytes (w.frame.drop 2) % 256 = 255 :=
  sumBytes_eq_255_iff.2 rfl

/-! ## Encoding (R124) -/

theorem encodeFrame_eq_none_iff {w : Wire} : encodeFrame w = none ↔ w.params.length > 253 := by
  simp [encodeFrame]

/-- The command that emits an instruction sends the instruction's own frame. -/
theorem frameOf_commandOf (i : Instr) : Machine.frameOf (Machine.commandOf i) = some i.wire := by
  cases i with
  | syncWrite addr len entries =>
    obtain ⟨-, -, hframe⟩ := Laws.EmittedBy.syncWrite addr len entries
    exact hframe
  | _ => rfl

end Sys2Proof

namespace Sys2Proof.Machine

/-! ## Confirmed syncs (R125) -/

/-- A confirmed sync ends inside the bytes, so a default value for the bytes beyond them says the same. -/
theorem confirmedSync_iff_getD {s : List Byte} {i : Nat} :
    confirmedSync s i ↔
      i + 2 < s.length ∧ s.getD i 0 = 0xFF ∧ s.getD (i + 1) 0 = 0xFF ∧ s.getD (i + 2) 0 ≠ 0xFF := by
  unfold confirmedSync
  refine and_congr_right fun hi => ?_
  simp [List.getD_eq_getElem?_getD, List.getElem?_eq_getElem hi,
    List.getElem?_eq_getElem (show i < s.length by omega), List.getElem?_eq_getElem (show i + 1 < s.length by omega)]

theorem confirmedSync_zero_iff {a b c : Byte} {rest : List Byte} :
    confirmedSync (a :: b :: c :: rest) 0 ↔ a = 0xFF ∧ b = 0xFF ∧ c ≠ 0xFF := by
  simp [confirmedSync]

theorem confirmedSync_succ_iff {a : Byte} {s : List Byte} {i : Nat} :
    confirmedSync (a :: s) (i + 1) ↔ confirmedSync s i := by
  simp only [confirmedSync, List.length_cons, show i + 1 + 2 = (i + 2) + 1 from rfl, List.getElem?_cons_succ,
    Nat.add_lt_add_iff_right]

theorem confirmedSync_of_findSync : ∀ {s : List Byte} {i : Nat}, findSync s = some i →
    confirmedSync s i ∧ ∀ j < i, ¬confirmedSync s j
  | [], _, h | [_], _, h | [_, _], _, h => by simp [findSync] at h
  | a :: b :: c :: rest, i, h => by
    by_cases hc : a = 0xFF ∧ b = 0xFF ∧ c ≠ 0xFF
    · rw [findSync_zero hc] at h
      cases h
      exact ⟨confirmedSync_zero_iff.2 hc, nofun⟩
    · rw [findSync_skip hc] at h
      obtain ⟨m, hm, rfl⟩ := Option.map_eq_some_iff.1 h
      obtain ⟨hsync, hleast⟩ := confirmedSync_of_findSync hm
      refine ⟨confirmedSync_succ_iff.2 hsync, fun j hj => ?_⟩
      cases j with
      | zero => exact hc ∘ confirmedSync_zero_iff.1
      | succ j => exact hleast j (by omega) ∘ confirmedSync_succ_iff.1

theorem not_confirmedSync_of_findSync_none : ∀ {s : List Byte}, findSync s = none → ∀ i, ¬confirmedSync s i
  | [], _, i | [_], _, i | [_, _], _, i => by
    rintro ⟨hi, -⟩
    simp at hi
  | a :: b :: c :: rest, h, i => by
    have hc : ¬(a = 0xFF ∧ b = 0xFF ∧ c ≠ 0xFF) := fun hc => by simp [findSync_zero hc] at h
    rw [findSync_skip hc, Option.map_eq_none_iff] at h
    cases i with
    | zero => exact hc ∘ confirmedSync_zero_iff.1
    | succ i => exact not_confirmedSync_of_findSync_none h i ∘ confirmedSync_succ_iff.1

theorem findSync_eq_none_iff {s : List Byte} : findSync s = none ↔ ∀ i, ¬confirmedSync s i := by
  refine ⟨not_confirmedSync_of_findSync_none, fun h => ?_⟩
  exact Option.eq_none_iff_forall_not_mem.2 fun i hi => h i (confirmedSync_of_findSync hi).1

theorem findSync_eq_some_iff {s : List Byte} {i : Nat} :
    findSync s = some i ↔ confirmedSync s i ∧ ∀ j < i, ¬confirmedSync s j := by
  refine ⟨confirmedSync_of_findSync, fun ⟨hi, hleast⟩ => ?_⟩
  cases h : findSync s with
  | none => exact absurd hi (not_confirmedSync_of_findSync_none h i)
  | some m =>
    obtain ⟨hm, hm_least⟩ := confirmedSync_of_findSync h
    have hle : m ≤ i := Nat.le_of_not_lt fun hlt => hm_least i hlt hi
    have hge : i ≤ m := Nat.le_of_not_lt fun hlt => hleast m hlt hm
    rw [Nat.le_antisymm hle hge]

/-! ## Which sync the decoder reads from (R126, R127) -/

theorem decodeResponse_of_findSync {scanLimit i : Nat} {s : List Byte} (h : findSync s = some i)
    (hi : i < scanLimit) : decodeResponse scanLimit s = decodeAt i s := by
  simp only [decodeResponse, h, if_pos hi]

theorem decodeResponse_of_confirmedSync_zero (p : Params) {s : List Byte} (h : confirmedSync s 0) :
    decodeResponse p.scanLimit s = decodeAt 0 s :=
  decodeResponse_of_findSync (findSync_eq_some_iff.2 ⟨h, nofun⟩) p.scanLimit_pos

theorem decodeResponse_of_no_sync {scanLimit : Nat} {s : List Byte} (h : ∀ i < scanLimit, ¬confirmedSync s i) :
    decodeResponse scanLimit s = decodeNoSync scanLimit s := by
  unfold decodeResponse
  split
  · rename_i i hi
    exact if_neg fun hlt => h i hlt (confirmedSync_of_findSync hi).1
  · rfl

/-- SyncNotFound comes only from bytes with no confirmed sync below the limit: a frame is never read as such. -/
theorem no_sync_of_syncNotFound {scanLimit n : Nat} {s : List Byte}
    (h : decodeResponse scanLimit s = .found .syncNotFound n) : ∀ i < scanLimit, ¬confirmedSync s i := by
  intro i hi hsync
  cases hf : findSync s with
  | none => exact not_confirmedSync_of_findSync_none hf i hsync
  | some m =>
    have hle : m ≤ i := Nat.le_of_not_lt fun hlt => (confirmedSync_of_findSync hf).2 i hlt hsync
    rw [decodeResponse_of_findSync hf (by omega)] at h
    obtain ⟨⟨⟩, -⟩ | ⟨_, _, _, _, -, -, -, -, ⟨⟨⟩, -⟩ | ⟨⟨⟩, -⟩⟩ := decodeAt_cases h

/-! ## The frame behind a sync, by index (R126) -/

theorem drop_eq_getD_cons {s : List Byte} {i : Nat} (h : i < s.length) : s.drop i = s.getD i 0 :: s.drop (i + 1) := by
  rw [List.getD_eq_getElem s 0 h]
  exact List.drop_eq_getElem_cons h

/-- A whole frame behind the sync is judged by its checksum byte alone. -/
theorem decodeAt_of_whole {i : Nat} {s params rest : List Byte} {id len b4 c : Byte}
    (hd : s.drop (i + 2) = id :: len :: b4 :: (params ++ c :: rest)) (hl : len.toNat = params.length + 2) :
    decodeAt i s = if c = checksum id len b4 params then .found (.ok id b4 params) (i + 4 + len.toNat)
      else .found .checksumMismatch (i + 4 + len.toNat) := by
  have hlong : ¬(b4 :: (params ++ c :: rest)).length < len.toNat := by simp [hl]
  have htake : (b4 :: (params ++ c :: rest)).take len.toNat = b4 :: (params ++ [c]) := by
    rw [hl, List.take_succ_cons, List.take_length_add_append]
    rfl
  simp only [decodeAt, hd, if_neg (show ¬len.toNat < 2 by omega), if_neg hlong, htake]
  simp [hl]

theorem decodeAt_of_no_header {i : Nat} {s : List Byte} (h : s.length < i + 4) : decodeAt i s = .incomplete := by
  unfold decodeAt
  split
  · rename_i hd
    have := congrArg List.length hd
    simp only [List.length_drop, List.length_cons] at this
    omega
  · rfl

/-- R126 from `i := min(I)` on. -/
theorem decodeAt_eq (i : Nat) (s : List Byte) :
    let len := s.getD (i + 3) 0
    let params := (s.drop (i + 5)).take (len.toNat - 2)
    decodeAt i s
      = if s.length < i + 4 then .incomplete
        else if len.toNat < 2 then .found .malformed (i + 4)
        else if s.length < i + 4 + len.toNat then .incomplete
        else if s.getD (i + 3 + len.toNat) 0 ≠ checksum (s.getD (i + 2) 0) len (s.getD (i + 4) 0) params then
          .found .checksumMismatch (i + 4 + len.toNat)
        else .found (.ok (s.getD (i + 2) 0) (s.getD (i + 4) 0) params) (i + 4 + len.toNat) := by
  intro len params
  by_cases hheader : s.length < i + 4
  · rw [if_pos hheader, decodeAt_of_no_header hheader]
  rw [if_neg hheader]
  have hd : s.drop (i + 2) = s.getD (i + 2) 0 :: len :: s.drop (i + 4) := by
    rw [drop_eq_getD_cons (by omega), drop_eq_getD_cons (i := i + 3) (by omega)]
  by_cases hmal : len.toNat < 2
  · simp only [decodeAt, hd, if_pos hmal]
  rw [if_neg hmal]
  by_cases htrunc : s.length < i + 4 + len.toNat
  · have hshort : (s.drop (i + 4)).length < len.toNat := by simp only [List.length_drop]; omega
    simp only [decodeAt, hd, if_neg hmal, if_pos hshort, if_pos htrunc]
  rw [if_neg htrunc, ite_not]
  have hl : len.toNat = params.length + 2 := by
    simp only [params, List.length_take, List.length_drop]
    omega
  have hbody : s.drop (i + 5) = params ++ s.getD (i + 3 + len.toNat) 0 :: s.drop (i + 4 + len.toNat) := by
    conv_lhs => rw [← List.take_append_drop (len.toNat - 2) (s.drop (i + 5))]
    rw [List.drop_drop, show i + 5 + (len.toNat - 2) = i + 3 + len.toNat by omega,
      drop_eq_getD_cons (i := i + 3 + len.toNat) (by omega), show i + 3 + len.toNat + 1 = i + 4 + len.toNat by omega]
  refine decodeAt_of_whole (rest := s.drop (i + 4 + len.toNat)) ?_ hl
  rw [hd, ← hbody, drop_eq_getD_cons (i := i + 4) (by omega)]

/-- Where all the bytes LEN asks for are there, only the checksum is left to decide. -/
theorem decodeAt_of_complete {i len : Nat} {s : List Byte} (hlen : (s.getD (i + 3) 0).toNat = len) (h2 : 2 ≤ len)
    (hl : i + 4 + len ≤ s.length) :
    decodeAt i s = .found .checksumMismatch (i + 4 + len)
    ∨ decodeAt i s
      = .found (.ok (s.getD (i + 2) 0) (s.getD (i + 4) 0) ((s.drop (i + 5)).take (len - 2))) (i + 4 + len) := by
  rw [decodeAt_eq, if_neg (by omega), if_neg (by omega), if_neg (by omega), hlen]
  exact ite_eq_or_eq _ _ _

/-- The bytes an accepted frame consumes from its sync marker on sum to 255 from its ID on. -/
theorem sumBytes_of_decodeAt_ok {i n : Nat} {s params : List Byte} {id status : Byte}
    (h : decodeAt i s = .found (.ok id status params) n) : sumBytes ((s.take n).drop (i + 2)) % 256 = 255 := by
  obtain ⟨⟨⟩, -⟩ | ⟨id', len, b4, tail, hd, h2, rfl, hlen, ⟨⟨⟩, -⟩ | ⟨-, hc⟩⟩ := decodeAt_cases h
  obtain ⟨m, hm⟩ : ∃ m, len.toNat = m + 2 := ⟨len.toNat - 2, by omega⟩
  rw [hm, Nat.add_sub_cancel] at hc
  have hframe : (s.take (i + 4 + len.toNat)).drop (i + 2)
      = [id', len, b4] ++ tail.take m ++ [checksum id' len b4 (tail.take m)] := by
    rw [List.drop_take, hd, show i + 4 + len.toNat - (i + 2) = m + 1 + 1 + 1 + 1 by omega, List.take_succ_cons,
      List.take_succ_cons, List.take_succ_cons, List.take_add_one, hc]
    simp
  rw [hframe]
  exact sumBytes_eq_255_iff.2 rfl

/-! ## Frames -/

@[simp] theorem frame_getD_zero (w : Wire) : w.frame.getD 0 0 = 0xFF := rfl
@[simp] theorem frame_getD_one (w : Wire) : w.frame.getD 1 0 = 0xFF := rfl
@[simp] theorem frame_getD_two (w : Wire) : w.frame.getD 2 0 = w.id := rfl
@[simp] theorem frame_getD_three (w : Wire) : w.frame.getD 3 0 = w.len := rfl
@[simp] theorem frame_getD_four (w : Wire) : w.frame.getD 4 0 = w.inst := rfl

theorem confirmedSync_frame_append {w : Wire} (hid : w.id.toNat ≤ 254) (s : List Byte) :
    confirmedSync (w.frame ++ s) 0 :=
  confirmedSync_zero_iff.2 ⟨rfl, rfl, fun h => by simp [h] at hid⟩

/-! ## One flipped bit (R135) -/

@[simp] theorem flipBit_length (f : List Byte) (j k : Nat) : (flipBit f j k).length = f.length := by
  simp [flipBit]

theorem flipBit_getD_same {f : List Byte} {j : Nat} (k : Nat) (hj : j < f.length) :
    (flipBit f j k).getD j 0 = f.getD j 0 ^^^ (1#8 <<< k) := by
  simp [flipBit, List.getD_eq_getElem?_getD, hj]

theorem flipBit_getD_ne {f : List Byte} {j i : Nat} (k : Nat) (h : j ≠ i) :
    (flipBit f j k).getD i 0 = f.getD i 0 := by
  simp [flipBit, List.getD_eq_getElem?_getD, List.getElem?_set_ne h]

theorem flipBit_drop (f : List Byte) {j d : Nat} (k : Nat) (h : d ≤ j) :
    (flipBit f j k).drop d = flipBit (f.drop d) (j - d) k := by
  simp [flipBit, List.drop_set, Nat.not_lt.2 h, List.getD_eq_getElem?_getD, Nat.add_sub_cancel' h]

theorem xor_bit_ne (b : Byte) {k : Nat} (hk : k < 8) : b ^^^ (1#8 <<< k) ≠ b := by
  have hbit : ∀ k < 8, 1#8 <<< k ≠ 0#8 := by decide
  intro h
  exact hbit k hk (by simpa using h)

/-- An ID that one flipped bit turns into 0xFF is 0xFF with that bit flipped. -/
theorem mem_of_xor_bit_eq_ff {b : Byte} {k : Nat} (hk : k < 8) (h : b ^^^ (1#8 <<< k) = 0xFF) :
    b ∈ ([0x7F, 0xBF, 0xDF, 0xEF, 0xF7, 0xFB, 0xFD, 0xFE] : List Byte) := by
  have hlist : ∀ k < 8,
      0xFF#8 ^^^ (1#8 <<< k) ∈ ([0x7F, 0xBF, 0xDF, 0xEF, 0xF7, 0xFB, 0xFD, 0xFE] : List Byte) := by decide
  have hb : b = 0xFF#8 ^^^ (1#8 <<< k) := by
    rw [← show _ = 0xFF#8 from h, BitVec.xor_assoc, BitVec.xor_self, BitVec.xor_zero]
  exact hb ▸ hlist k hk

theorem sumBytes_set {s : List Byte} {j : Nat} (b : Byte) (hj : j < s.length) :
    sumBytes (s.set j b) + (s.getD j 0).toNat = sumBytes s + b.toNat := by
  induction s generalizing j with
  | nil => simp at hj
  | cons a s ih =>
    cases j with
    | zero => simp; omega
    | succ j =>
      have := ih (j := j) (by simpa using hj)
      simp only [List.set_cons_succ, List.getD_cons_succ, sumBytes_cons]
      omega

/-- A flipped bit changes the sum modulo 256: it changes one byte. -/
theorem sumBytes_flipBit_ne {s : List Byte} {j k : Nat} (hj : j < s.length) (hk : k < 8) :
    sumBytes (flipBit s j k) % 256 ≠ sumBytes s % 256 := by
  have hsum := sumBytes_set (s.getD j 0 ^^^ (1#8 <<< k)) hj
  have hne : (s.getD j 0 ^^^ (1#8 <<< k)).toNat ≠ (s.getD j 0).toNat := fun h =>
    xor_bit_ne _ hk (BitVec.toNat_inj.1 h)
  have := (s.getD j 0).isLt
  have := (s.getD j 0 ^^^ (1#8 <<< k)).isLt
  rw [flipBit]
  omega

theorem not_confirmedSync_flipBit {f : List Byte} {j k : Nat} (hj : j < 2) (hk : k < 8)
    (hf : f.getD j 0 = 0xFF) : ¬confirmedSync (flipBit f j k) 0 := by
  intro h
  obtain ⟨hlen, h0, h1, -⟩ := confirmedSync_iff_getD.1 h
  rw [flipBit_length] at hlen
  have hflip := flipBit_getD_same k (show j < f.length by omega)
  have hff : (flipBit f j k).getD j 0 = 0xFF := by
    obtain rfl | rfl : j = 0 ∨ j = 1 := by omega
    · exact h0
    · exact h1
  rw [hff, ← hf] at hflip
  exact xor_bit_ne _ hk hflip.symm

/-- A flip behind the sync bytes leaves the sync confirmed at index 0, but where the ID becomes 0xFF. -/
theorem decodeResponse_flipBit (p : Params) {w : Wire} {j : Nat} (k : Nat) (hj : 2 ≤ j)
    (hid : (flipBit w.frame j k).getD 2 0 ≠ 0xFF) :
    decodeResponse p.scanLimit (flipBit w.frame j k) = decodeAt 0 (flipBit w.frame j k) := by
  refine decodeResponse_of_confirmedSync_zero p (confirmedSync_iff_getD.2 ⟨by simp, ?_, ?_, hid⟩)
  · rw [flipBit_getD_ne k (by omega), frame_getD_zero]
  · rw [flipBit_getD_ne k (by omega), frame_getD_one]

/-- Outside the sync bytes and LEN a flip leaves the frame whole and breaks its sum. -/
theorem decodeAt_flipBit_checksumMismatch {w : Wire} {j k : Nat} (hp : w.params.length ≤ 253) (hj : 2 ≤ j)
    (h3 : j ≠ 3) (hl : j < w.params.length + 6) (hk : k < 8) :
    decodeAt 0 (flipBit w.frame j k) = .found .checksumMismatch (w.params.length + 6) := by
  have hlen : ((flipBit w.frame j k).getD 3 0).toNat = w.params.length + 2 := by
    rw [flipBit_getD_ne k h3, frame_getD_three, len_toNat hp]
  have hlength : (flipBit w.frame j k).length = 0 + 4 + (w.params.length + 2) := by
    rw [flipBit_length, frame_length]
    omega
  have hsum : sumBytes ((flipBit w.frame j k).drop 2) % 256 ≠ 255 := by
    rw [flipBit_drop w.frame k hj, ← sumBytes_frame w]
    exact sumBytes_flipBit_ne (by simp; omega) hk
  obtain h | h := decodeAt_of_complete hlen (by omega) hlength.ge
  · rw [h, ← hlength, flipBit_length, frame_length]
  · refine absurd (sumBytes_of_decodeAt_ok h) ?_
    rwa [← hlength, List.take_length]

/-! ## The obligations -/

/-- Settles O5: of the four outcomes of an Issue step (`issue_cases`) only the refusal for size is left, since the
command's frame is the instruction's (`frameOf_commandOf`). -/
theorem encodingFailsExactlyAbove253Params : Obligations.EncodingFailsExactlyAbove253Params := by
  unfold Obligations.EncodingFailsExactlyAbove253Params
  refine ⟨fun w => ⟨encodeFrame_eq_none_iff, fun f hf => ?_⟩, fun i s hs hopen hargs hlong => ?_⟩
  · rw [(encodeFrame_some_iff.1 hf).2, frame_length]
  · have hframe := frameOf_commandOf i
    rw [exec_eq]
    obtain ⟨hc, -⟩ | ⟨-, hb, -⟩ | ⟨-, -, -, h⟩ | ⟨-, -, w, hw, hle, -⟩ :=
      issue_cases (c := commandOf i) hs (by rw [hframe]; rfl)
    · simp [hopen] at hc
    · simp [hargs] at hb
    · rw [h]
      rfl
    · cases hframe.symm.trans hw
      exact absurd hlong (Nat.not_lt.2 hle)

/-- Settles O6: each frame ends in the checksum of the bytes before it, and comparing the checksum is checking the sum
(`sumBytes_eq_255_iff`). -/
theorem frameBytesSumTo255 : Obligations.FrameBytesSumTo255 := by
  unfold Obligations.FrameBytesSumTo255
  refine ⟨fun w f hf => ?_, fun scanLimit i n s id status params h hsync => ?_, fun _ _ _ _ _ => sumBytes_eq_255_iff⟩
  · rw [(encodeFrame_some_iff.1 hf).2]
    exact sumBytes_frame w
  · obtain ⟨⟨⟩, -⟩ | ⟨m, hm, -, hat⟩ := decodeResponse_cases h
    cases hsync.symm.trans hm
    exact sumBytes_of_decodeAt_ok hat

/-- Settles O7, by the recursion of `findSync` (`confirmedSync_of_findSync`, `not_confirmedSync_of_findSync_none`). -/
theorem leastConfirmedSyncIsUsed : Obligations.LeastConfirmedSyncIsUsed := by
  unfold Obligations.LeastConfirmedSyncIsUsed
  exact fun _ => ⟨fun _ => findSync_eq_some_iff, findSync_eq_none_iff⟩

/-- Settles O8: the sync decides which of the two rules reads the bytes, and the frame's rule is `decodeAt_eq`. -/
theorem decodeFollowsItsRule : Obligations.DecodeFollowsItsRule := by
  unfold Obligations.DecodeFollowsItsRule
  intro scanLimit s
  refine ⟨decodeResponse_of_no_sync, fun i hi hsync hleast => ?_⟩
  rw [decodeResponse_of_findSync (findSync_eq_some_iff.2 ⟨hsync, hleast⟩) hi]
  exact decodeAt_eq i s

/-- Settles O9: no frame is read as SyncNotFound (`no_sync_of_syncNotFound`), and without a sync the buffer's length
decides. -/
theorem syncNotFoundConsumesScanLimit : Obligations.SyncNotFoundConsumesScanLimit := by
  unfold Obligations.SyncNotFoundConsumesScanLimit
  intro scanLimit n s
  constructor
  · intro h
    have hno := no_sync_of_syncNotFound h
    obtain ⟨-, hn, hl⟩ | ⟨i, hi, hlt, -⟩ := decodeResponse_cases h
    · exact ⟨hn, hno, hl⟩
    · exact absurd (confirmedSync_of_findSync hi).1 (hno i hlt)
  · rintro ⟨rfl, hno, hl⟩
    rw [decodeResponse_of_no_sync hno]
    exact if_pos hl

/-- Settles O11: the frame's own sync is the first, and its checksum byte is the right one (`decodeAt_of_whole`). -/
theorem decodeRecoversEncodedFrame : Obligations.DecodeRecoversEncodedFrame := by
  unfold Obligations.DecodeRecoversEncodedFrame
  intro p w s hid hp
  refine ⟨w.frame, encodeFrame_eq_some hp, ?_⟩
  have hd : (w.frame ++ s).drop (0 + 2)
      = w.id :: w.len :: w.inst :: (w.params ++ checksum w.id w.len w.inst w.params :: s) := by
    simp [Wire.frame]
  rw [decodeResponse_of_confirmedSync_zero p (confirmedSync_frame_append hid s), decodeAt_of_whole hd (len_toNat hp),
    if_pos rfl, len_toNat hp, show 0 + 4 + (w.params.length + 2) = w.params.length + 6 by omega]

/-- Settles O12: a flip breaks the marker (`not_confirmedSync_flipBit`), the sum (`decodeAt_flipBit_checksumMismatch`)
or LEN, and then R126's rule (`decodeAt_eq`) goes by the value LEN takes. -/
theorem singleBitSensitivity : Obligations.SingleBitSensitivity := by
  unfold Obligations.SingleBitSensitivity
  intro p w j k hid hp hk hj f'
  have hne : w.id ≠ 0xFF := fun h => by simp [h] at hid
  have hlength : f'.length = w.params.length + 6 := by simp [f']
  have hid_kept (h : j ≠ 2) : f'.getD 2 0 = w.id := (flipBit_getD_ne k h).trans (frame_getD_two w)
  have hne_kept (h : j ≠ 2) : f'.getD 2 0 ≠ 0xFF := (hid_kept h).trans_ne hne
  have hat_len (h : j = 3) : decodeResponse p.scanLimit f' = decodeAt 0 f' :=
    decodeResponse_flipBit p k (by omega) (hne_kept (by omega))
  refine ⟨fun h => ?_, fun h hff => ?_, fun h hff => ⟨?_, ?_⟩, fun h hlen => ?_, fun h hlen => ?_,
    fun h h2 hlen => ?_, fun h => ?_⟩
  · rw [decodeResponse_flipBit p k (by omega) (hne_kept (by omega))]
    exact decodeAt_flipBit_checksumMismatch hp (by omega) (by omega) hj hk
  · rw [decodeResponse_flipBit p k (by omega) hff]
    exact decodeAt_flipBit_checksumMismatch hp (by omega) (by omega) hj hk
  · subst h
    exact mem_of_xor_bit_eq_ff hk ((flipBit_getD_same k (by simp)).symm.trans hff)
  · intro hsync
    obtain ⟨-, -, -, hid_ne⟩ := confirmedSync_iff_getD.1 hsync
    exact hid_ne hff
  · rw [hat_len h, decodeAt_eq, if_neg (by omega), if_pos hlen]
  · simp only [hat_len h, decodeAt_eq, Nat.zero_add]
    rw [if_neg (by omega), if_neg (by omega), if_pos (by omega)]
  · have hcomplete := decodeAt_of_complete (i := 0) (len := (f'.getD 3 0).toNat) rfl h2 (by omega)
    have hinst : f'.getD 4 0 = w.inst := (flipBit_getD_ne k (by omega)).trans (frame_getD_four w)
    rw [hat_len h]
    simp only [Nat.zero_add, hid_kept (show j ≠ 2 by omega), hinst] at hcomplete
    refine hcomplete.imp_right fun hok => ⟨_, ?_, hok⟩
    simp only [List.length_take]
    omega
  · refine not_confirmedSync_flipBit h hk ?_
    obtain rfl | rfl : j = 0 ∨ j = 1 := by omega
    · exact frame_getD_zero w
    · exact frame_getD_one w

end Sys2Proof.Machine
end

-- Transactions: validation, the end of a single-device window, broadcast.
section
/-! SUPPORT. How a command is refused or starts (42_transactions.md R142, 43_group.md R181, R184), how the first frame
of a single-device window ends its command (R146), and why a broadcast command has no window (R144, R162). -/

namespace Sys2Proof.Machine

/-! ## Validation (R142) -/

theorem toNat_eq_zero_iff {b : Byte} : b.toNat = 0 ↔ b = 0 := BitVec.toNat_inj (y := 0)

theorem hasDuplicate_iff {ids : List Byte} : hasDuplicate ids = true ↔ ¬ids.Nodup := by
  rw [← hasDuplicate_eq_false, Bool.not_eq_false]

theorem badArgument_read_iff {id addr len : Byte} {t : Ticks} :
    badArgument (.read id addr len t) = true ↔ id.toNat > 253 ∨ len = 0 ∨ len.toNat > 253 := by
  simp only [badArgument, Bool.or_eq_true, decide_eq_true_eq, toNat_eq_zero_iff, or_assoc]

/-- REGWRITE has the same row of the table as WRITE. -/
theorem badArgument_write_iff {id addr : Byte} {data : List Byte} {t : Ticks} :
    badArgument (.write id addr data t) = true ↔ id.toNat > 254 ∨ data = [] := by
  simp only [badArgument, Bool.or_eq_true, decide_eq_true_eq, List.length_eq_zero_iff]

theorem badArgument_txn_iff {inst id : Byte} {params : List Byte} {t : Ticks} :
    badArgument (.txn inst id params t) = true ↔
      (inst ≠ 0x06 ∧ inst ≠ 0x09 ∧ inst ≠ 0x0A ∧ inst ≠ 0x0B) ∨ id.toNat > 254 := by
  simp [badArgument]

theorem badArgument_syncWrite_iff {addr len : Byte} {entries : List Entry} :
    badArgument (.syncWrite addr len entries) = true ↔
      entries = [] ∨ len = 0 ∨ (∃ e ∈ entries, e.id.toNat > 253) ∨ ¬(entries.map Entry.id).Nodup
        ∨ ∃ e ∈ entries, e.data.length ≠ len.toNat := by
  simp only [badArgument, Bool.or_eq_true, decide_eq_true_eq, List.any_eq_true, List.length_eq_zero_iff,
    toNat_eq_zero_iff, hasDuplicate_iff, or_assoc]

theorem badArgument_syncRead_iff {addr len : Byte} {ids : List Byte} {t : Ticks} :
    badArgument (.syncRead addr len ids t) = true ↔
      ids = [] ∨ len = 0 ∨ len.toNat > 253 ∨ (∃ id ∈ ids, id.toNat > 253) ∨ ¬ids.Nodup := by
  simp only [badArgument, Bool.or_eq_true, decide_eq_true_eq, List.any_eq_true, List.length_eq_zero_iff,
    toNat_eq_zero_iff, hasDuplicate_iff, or_assoc]

theorem handle_issue_of_frame (p : Params) {s : State} {c : Command} (hf : (frameOf c).isSome = true) :
    s.handle p (.issue c) = s.issue c := by
  cases c with
  | openPort | closePort => cases hf
  | _ => rfl

/-- The Issue step's answer where the two columns of R142 hold or fail: the first check that fails posts its code. -/
theorem handle_issue_validates (p : Params) {s : State} {c : Command} {bad large : Prop} (hs : s.seq = .idle)
    (hf : (frameOf c).isSome = true) (hbad : bad ↔ badArgument c = true) (hlarge : large ↔ paramsTooLarge c = true) :
    (s.conn = .closed → s.handle p (.issue c) = postedState s (codeOnly .notOpen))
    ∧ (s.conn = .opened → bad → s.handle p (.issue c) = postedState s (codeOnly .badArgument))
    ∧ (s.conn = .opened → ¬bad → large → s.handle p (.issue c) = postedState s (codeOnly .paramsTooLarge))
    ∧ (s.conn = .opened → ¬bad → ¬large → (s.handle p (.issue c)).seq = .sending) := by
  rw [handle_issue_of_frame p hf, hbad, hlarge]
  rcases issue_cases hs hf with ⟨hc, h⟩ | ⟨hc, hb, h⟩ | ⟨hc, hb, hl, h⟩ | ⟨hc, ha, w, -, -, h⟩ <;> rw [h]
  · exact ⟨fun _ => rfl, by simp [hc], by simp [hc], by simp [hc]⟩
  · exact ⟨by simp [hc], fun _ _ => rfl, fun _ hn => absurd hb hn, fun _ hn => absurd hb hn⟩
  · exact ⟨by simp [hc], by simp [hb], fun _ _ _ => rfl, fun _ _ hn => absurd hl hn⟩
  · simp only [accepted, Bool.and_eq_true, Bool.not_eq_true'] at ha
    obtain ⟨⟨-, hb⟩, hl⟩ := ha
    exact ⟨by simp [hc], by simp [hb], by simp [hl], fun _ _ _ => rfl⟩

/-! ## The end of a single-device window (R145, R146) -/

theorem settleLoop_of_not_await {scanLimit : Nat} (fuel : Nat) {s : State} (h : s.seq ≠ .await) :
    settleLoop scanLimit fuel s = s := by
  cases fuel with
  | zero => rfl
  | succ fuel => exact if_neg h

theorem settleLoop_of_found {scanLimit n : Nat} (fuel : Nat) {s : State} {r : FrameResult} (hs : s.seq = .await)
    (hr : decodeResponse scanLimit s.rxfifo = .found r n) :
    settleLoop scanLimit (fuel + 1) s
      = settleLoop scanLimit fuel (State.resolve { s with rxfifo := s.rxfifo.drop n } r) := by
  simp only [settleLoop, if_pos hs, hr]

/-- Nothing is found in no bytes. -/
theorem ne_nil_of_found {scanLimit n : Nat} {bytes : List Byte} {r : FrameResult}
    (hr : decodeResponse scanLimit bytes = .found r n) : bytes ≠ [] := by
  rintro rfl
  simp [decodeResponse, findSync, decodeNoSync] at hr

theorem resolve_of_single {s : State} {c : Command} (hc : s.cur = some c)
    (hsync : ∀ addr len ids t, c ≠ .syncRead addr len ids t) (r : FrameResult) :
    s.resolve r = s.post (singleResult c s.slot r) := by
  cases c with
  | syncRead addr len ids t => exact absurd rfl (hsync addr len ids t)
  | _ => simp only [State.resolve, hc]

/-- The first frame ends the command: its bytes are consumed, and after Post the loop stops. -/
theorem settle_of_single {scanLimit n : Nat} {s : State} {c : Command} {r : FrameResult} (hs : s.seq = .await)
    (hc : s.cur = some c) (hsync : ∀ addr len ids t, c ≠ .syncRead addr len ids t)
    (hr : decodeResponse scanLimit s.rxfifo = .found r n) :
    s.settle scanLimit = State.post { s with rxfifo := s.rxfifo.drop n } (singleResult c s.slot r) := by
  obtain ⟨fuel, hfuel⟩ := Nat.exists_eq_succ_of_ne_zero (List.length_eq_zero_iff.not.2 (ne_nil_of_found hr))
  rw [State.settle, hfuel, settleLoop_of_found fuel hs hr,
    resolve_of_single (s := { s with rxfifo := s.rxfifo.drop n }) hc hsync, settleLoop_of_not_await fuel (by simp)]

theorem expId_of_awaitedResponse {c : Command} {id : Byte} {count : Option Nat} (slot : Nat)
    (h : awaitedResponse c = some (id, count)) : expId c slot = some id := by
  cases c <;> cases h <;> rfl

/-- The model's expected parameter count and the table's: no count where any is right (R33, R77). -/
theorem admits_iff_of_awaitedResponse {c : Command} {id : Byte} {count : Option Nat} (n : Nat) (hw : opensWindow c)
    (h : awaitedResponse c = some (id, count)) :
    (expectation c).admits n = true ↔ ∀ m, count = some m → n = m := by
  cases c with
  | openPort | closePort | reboot | syncWrite | syncRead => cases h
  | ping | read | write | regWrite | action | txn =>
    cases h
    simp only [expectation, unlessBroadcast, if_neg hw, Expectation.admits]
    simp

section
variable {c : Command} {id awaitedId status : Byte} {params : List Byte} {count : Option Nat} (slot : Nat)

theorem singleResult_of_wrong_id (h : awaitedResponse c = some (awaitedId, count)) (hid : id ≠ awaitedId) :
    singleResult c slot (.ok id status params) = codeOnly .idMismatch :=
  if_pos (by simpa [expId_of_awaitedResponse slot h] using hid.symm)

theorem singleResult_of_wrong_count (hw : opensWindow c) (h : awaitedResponse c = some (id, count))
    (hcount : ∃ m, count = some m ∧ params.length ≠ m) :
    singleResult c slot (.ok id status params) = codeOnly .lengthMismatch := by
  have hrefused : (expectation c).admits params.length = false := by
    rw [Bool.eq_false_iff, ne_eq, admits_iff_of_awaitedResponse _ hw h]
    push Not
    exact hcount
  exact (if_neg (not_not_intro (expId_of_awaitedResponse slot h))).trans (if_pos (by simp [hrefused]))

theorem singleResult_of_awaited (hw : opensWindow c) (h : awaitedResponse c = some (id, count))
    (hcount : ∀ m, count = some m → params.length = m) :
    singleResult c slot (.ok id status params)
      = { code := statusCode status, status := some status, data := if returnsData c then params else [],
          slots := [] } := by
  simp [singleResult, expId_of_awaitedResponse slot h, (admits_iff_of_awaitedResponse _ hw h).2 hcount]

end

/-! ## Broadcast (R144, R162) -/

theorem not_opensWindow_of_broadcast {c : Command} {w : Wire} (hf : frameOf c = some w) (hid : w.id = 0xFE)
    (hsync : ∀ addr len ids t, c ≠ .syncRead addr len ids t) : ¬opensWindow c := by
  cases c with
  | syncRead addr len ids t => exact absurd rfl (hsync addr len ids t)
  | openPort | closePort | reboot | syncWrite => simp [opensWindow]
  | ping | read | write | regWrite | action | txn =>
    cases hf
    exact not_not_intro hid

/-- A command that awaits nothing is SENDING for as long as it is in progress (R38, R144). -/
theorem sending_of_not_awaits {p : Params} {s : State} {c : Command} (hinv : EngineInv p s) (hc : s.cur = some c)
    (ha : awaits c = false) : s.seq = .sending := by
  cases hs : s.seq with
  | idle => simp [hinv.cur_none_iff.2 hs] at hc
  | sending => rfl
  | await => simp [hinv.window_awaits hs c hc] at ha

theorem sent_of_not_awaits {s : State} {c : Command} (hc : s.cur = some c) (ha : awaits c = false) :
    s.sent = s.post (.only .ok) := by
  rcases sent_cases hc with ⟨h, -⟩ | ⟨-, h⟩
  · simp [ha] at h
  · exact h

/-- A received byte takes nothing off the FIFO. -/
theorem rxByte_rxfifo (p : Params) (s : State) (b : Byte) : ∃ more, (s.rxByte p b).rxfifo = s.rxfifo ++ more := by
  rcases rxByte_cases p s b with ⟨-, h⟩ | ⟨-, -, h⟩ | ⟨-, -, h⟩ <;> rw [h]
  · exact ⟨[], (List.append_nil _).symm⟩
  · exact ⟨[b], rfl⟩
  · exact ⟨[], (List.append_nil _).symm⟩

/-- A byte the UART takes leaves a command that awaits nothing SENDING, or ends it in a plain OK (R104, R144). -/
theorem handle_txAccept_of_not_awaits {p : Params} {s : State} {c : Command} (hinv : EngineInv p s)
    (hs : s.seq = .sending) (hc : s.cur = some c) (ha : awaits c = false) :
    ((s.handle p .txAccept).seq = .sending ∧ (s.handle p .txAccept).rxfifo = s.rxfifo)
    ∨ ∃ t : State, t.rxfifo = s.rxfifo ∧ s.handle p .txAccept = t.post (.only .ok) := by
  obtain ⟨-, hpos⟩ := hinv.sending_iff.1 hs
  have hb : s.txbuf[s.txpos]? = some s.txbuf[s.txpos] := List.getElem?_eq_getElem hpos
  by_cases hl : s.txpos + 1 = s.txbuf.length
  · refine .inr ⟨{ s with txlog := s.txlog ++ [s.txbuf[s.txpos]], txpos := s.txpos + 1 }, rfl, ?_⟩
    rw [State.handle, txAccept_of_last hb hl, sent_of_not_awaits (by exact hc) ha, settle_post]
  · rw [handle_txAccept_of_more p hs hb hl]
    exact .inl ⟨hs, rfl⟩

/-! ## The obligations -/

/-- Settles O26: the Issue step follows the model's two columns (`handle_issue_validates`), which are R142's. -/
theorem validationFollowsItsTable : Obligations.ValidationFollowsItsTable := by
  unfold Obligations.ValidationFollowsItsTable
  intro p s c hs bad large htable
  cases c with
  | openPort | closePort => exact htable.elim
  | ping | action | reboot =>
    obtain ⟨hbad, hsmall⟩ := htable
    exact handle_issue_validates p hs rfl (hbad.trans decide_eq_true_iff.symm) (by simpa [paramsTooLarge] using hsmall)
  | read =>
    obtain ⟨hbad, hsmall⟩ := htable
    exact handle_issue_validates p hs rfl (hbad.trans badArgument_read_iff.symm)
      (by simpa [paramsTooLarge] using hsmall)
  | write id addr data t | regWrite id addr data t =>
    obtain ⟨hbad, hlarge⟩ := htable
    exact handle_issue_validates p hs rfl (hbad.trans (badArgument_write_iff (addr := addr) (t := t)).symm)
      (hlarge.trans decide_eq_true_iff.symm)
  | txn =>
    obtain ⟨hbad, hlarge⟩ := htable
    exact handle_issue_validates p hs rfl (hbad.trans badArgument_txn_iff.symm) (hlarge.trans decide_eq_true_iff.symm)
  | syncWrite =>
    obtain ⟨hbad, hlarge⟩ := htable
    exact handle_issue_validates p hs rfl (hbad.trans badArgument_syncWrite_iff.symm)
      (hlarge.trans decide_eq_true_iff.symm)
  | syncRead =>
    obtain ⟨hbad, hlarge⟩ := htable
    exact handle_issue_validates p hs rfl (hbad.trans badArgument_syncRead_iff.symm)
      (hlarge.trans decide_eq_true_iff.symm)

/-- Settles O45: the first frame ends the command in `singleResult` of what was found (`settle_of_single`), and each
clause is one of its cases. -/
theorem resolveFollowsItsRule : Obligations.ResolveFollowsItsRule := by
  unfold Obligations.ResolveFollowsItsRule
  intro p s c r n hs hc hsync hr
  have hend := settle_of_single hs hc hsync hr
  dsimp only
  refine ⟨?_, ?_, ?_, ?_⟩
  · rintro rfl
    exact hend
  · rintro rfl
    exact hend
  · rintro rfl
    exact hend
  · rintro id status params awaitedId count rfl hw h
    refine ⟨fun hid => ?_, ?_, ?_⟩
    · rw [hend, singleResult_of_wrong_id _ h hid]
      rfl
    · rintro rfl hcount
      rw [hend, singleResult_of_wrong_count _ hw h hcount]
      rfl
    · rintro rfl hcount
      rw [hend, singleResult_of_awaited _ hw h hcount]
      cases c <;> rfl

/-- Settles O50: a broadcast command awaits nothing, so it is SENDING (`sending_of_not_awaits`); there bytes only join
the FIFO, a tick does nothing, and the UART's last byte ends the command (`handle_txAccept_of_not_awaits`). -/
theorem broadcastOpensNoWindow : Obligations.BroadcastOpensNoWindow := by
  unfold Obligations.BroadcastOpensNoWindow
  intro p s c w e hinv hc hf hid hsync he hlf hr
  have ha : awaits c = false := by
    rw [Bool.eq_false_iff, ne_eq, awaits_iff_opensWindow]
    exact not_opensWindow_of_broadcast hf hid hsync
  have hs := sending_of_not_awaits hinv hc ha
  have hna : s.seq ≠ .await := by simp [hs]
  refine ⟨hs, ?_⟩
  cases e with
  | issue => simp [issue_enabled, hs] at he
  | linkFail => exact absurd rfl hlf
  | reset => exact absurd rfl hr
  | tick =>
    rw [handle_tick_of_not_await p hna]
    exact ⟨hna, ⟨[], (List.append_nil _).symm⟩, absurd hs⟩
  | rxByte b =>
    rw [handle_rxByte_of_not_await p b hna, rxByte_seq]
    exact ⟨hna, rxByte_rxfifo p s b, absurd hs⟩
  | txAccept =>
    rcases handle_txAccept_of_not_awaits hinv hs hc ha with ⟨hseq, hfifo⟩ | ⟨t, hfifo, h⟩
    · exact ⟨by simp [hseq], ⟨[], by simp [hfifo]⟩, absurd hseq⟩
    · rw [h]
      exact ⟨nofun, ⟨[], by simp [hfifo]⟩, fun _ => ⟨rfl, hfifo⟩⟩

end Sys2Proof.Machine
end

-- Group transactions: validation, the slots of a SYNC_READ, the end of its batch.
section
/-! SUPPORT. How the group commands are refused or start (43_group.md R181, R184), what a slot of a SYNC_READ records
and where the batch goes on (R187), that a batch ends with one entry per device (R189), and that a corrupt reply spoils
only its own slot (R191). -/

namespace Sys2Proof.Machine

/-! ## Validation (R181, R184) -/

theorem exec_eq_handle (p : Params) (i : Instr) (s : State) :
    exec i s = .next (s.handle p (.issue (commandOf i))) := by
  rw [exec_eq, handle_issue_of_frame p (by rw [frameOf_commandOf]; rfl)]

/-- An Issue step that leaves the engine SENDING posted nothing. -/
theorem results_of_handle_issue_sending {p : Params} {s : State} {c : Command} (hs : s.seq = .idle)
    (hsends : (s.handle p (.issue c)).seq = .sending) : (s.handle p (.issue c)).results = s.results := by
  rcases handle_issue_latches_or_ends p c hs with ⟨-, -, h⟩ | ⟨_, _, h, -⟩
  · exact h
  · simp [h] at hsends

/-- R142's order at the level of `exec`, for any instruction: the first check that fails posts its code, and where none
fails the frame starts with nothing posted. -/
theorem exec_validates {i : Instr} {s : State} {bad large : Prop} (hs : s.seq = .idle)
    (hbad : bad ↔ badArgument (commandOf i) = true) (hlarge : large ↔ paramsTooLarge (commandOf i) = true) :
    (s.conn = .closed → exec i s = .next (postedState s (codeOnly .notOpen)))
    ∧ (s.conn = .opened → bad → exec i s = .next (postedState s (codeOnly .badArgument)))
    ∧ (s.conn = .opened → ¬bad → large → exec i s = .next (postedState s (codeOnly .paramsTooLarge)))
    ∧ (s.conn = .opened → ¬bad → ¬large →
        ∃ s', exec i s = .next s' ∧ s'.seq = .sending ∧ s'.results = s.results) := by
  obtain ⟨hclosed, hargs, hsize, hstarts⟩ :=
    handle_issue_validates Config.params (c := commandOf i) hs (by rw [frameOf_commandOf]; rfl) hbad hlarge
  simp only [exec_eq_handle Config.params, Host.Outcome.next.injEq]
  refine ⟨hclosed, hargs, hsize, fun ho hnb hnl => ⟨_, rfl, ?_⟩⟩
  have hsends := hstarts ho hnb hnl
  exact ⟨hsends, results_of_handle_issue_sending hs hsends⟩

theorem badArgument_of_accepted {c : Command} (h : accepted c = true) : badArgument c = false := by
  simp only [accepted, Bool.and_eq_true, Bool.not_eq_true'] at h
  obtain ⟨⟨-, hb⟩, -⟩ := h
  exact hb

/-! ## The entry of a slot (R187) -/

@[simp] theorem slotResult_id (id : Byte) (n : Nat) (r : FrameResult) : (slotResult id n r).id = id := by
  cases r with
  | ok rid status params =>
    simp only [slotResult]
    split
    · rfl
    · split <;> rfl
  | _ => rfl

theorem slotResult_of_wrong_id {id rid status : Byte} {n : Nat} {params : List Byte} (h : rid ≠ id) :
    slotResult id n (.ok rid status params) = .only id .idMismatch := if_pos h

theorem slotResult_of_wrong_length {id status : Byte} {n : Nat} {params : List Byte} (h : params.length ≠ n) :
    slotResult id n (.ok id status params) = .only id .lengthMismatch :=
  (if_neg (not_not_intro rfl)).trans (if_pos h)

theorem slotResult_of_awaited {id status : Byte} {n : Nat} {params : List Byte} (h : params.length = n) :
    slotResult id n (.ok id status params) = ⟨id, statusCode status, some status, params⟩ :=
  (if_neg (not_not_intro rfl)).trans (if_neg (not_not_intro h))

theorem resolve_of_syncRead {s : State} {addr len id : Byte} {ids : List Byte} {t : Ticks}
    (hc : s.cur = some (.syncRead addr len ids t)) (hid : ids[s.slot]? = some id) (r : FrameResult) :
    s.resolve r = s.nextSlot ids.length (slotResult id len.toNat r) := by
  simp [State.resolve, hc, hid]

/-! ## The end of a batch (R189) -/

/-- A slot's entry is a data entry with its status and `len` bytes, or an error entry with neither (R90, R189). -/
def SlotResult.Filled (len : Byte) (sr : SlotResult) : Prop :=
  ((∃ status, sr.status = some status ∧ sr.code = if status = 0 then .ok else .flags)
      ∧ sr.data.length = len.toNat)
    ∨ (isSlotError sr.code = true ∧ sr.status = none ∧ sr.data = [])

theorem filled_only {len id : Byte} {code : ResultCode} (h : isSlotError code = true) :
    (SlotResult.only id code).Filled len := .inr ⟨h, rfl, rfl⟩

theorem filled_slotResult (id len : Byte) (r : FrameResult) : (slotResult id len.toNat r).Filled len := by
  cases r with
  | ok rid status params =>
    by_cases hid : rid = id
    · subst hid
      by_cases hl : params.length = len.toNat
      · rw [slotResult_of_awaited hl]
        exact .inl ⟨⟨status, rfl, rfl⟩, hl⟩
      · rw [slotResult_of_wrong_length hl]
        exact filled_only rfl
    · rw [slotResult_of_wrong_id hid]
      exact filled_only rfl
  | _ => exact filled_only rfl

theorem isSlotError_expiryCode (heard : Bool) : isSlotError (expiryCode heard) = true := by
  cases heard <;> rfl

/-- The codes that go with a status byte are OK for 0 and FLAGS for any other (R210, R211). -/
theorem eq_statusCode_of_statusMatches {code : ResultCode} {status : Option Byte}
    (h : statusMatches code status = true) : ∃ st, status = some st ∧ code = statusCode st := by
  unfold statusMatches at h
  split at h
  · exact ⟨_, rfl, (if_pos (beq_iff_eq.1 h)).symm⟩
  · exact ⟨_, rfl, (if_neg (bne_iff_ne.1 h)).symm⟩
  · cases h

theorem filled_of_shaped {len : Byte} {sr : SlotResult} (h : sr.shaped = true)
    (hdata : sr.status.isSome = true → sr.data.length = len.toNat) : sr.Filled len := by
  simp only [SlotResult.shaped, Bool.or_eq_true, Bool.and_eq_true, Option.isNone_iff_eq_none,
    List.isEmpty_iff] at h
  rcases h with h | ⟨⟨hcode, hstatus⟩, hnil⟩
  · obtain ⟨st, hst, hcode⟩ := eq_statusCode_of_statusMatches h
    exact .inl ⟨⟨st, hst, hcode⟩, hdata (by simp [hst])⟩
  · exact .inr ⟨hcode, hstatus, hnil⟩

/-- A SYNC_READ with a slot still awaited: the entries so far are the first devices', and each is filled. -/
structure State.InBatch (s : State) (addr len : Byte) (ids : List Byte) (t : Ticks) : Prop where
  seq : s.seq = .await
  cur : s.cur = some (.syncRead addr len ids t)
  slot_lt : s.slot < ids.length
  slots_id : s.slots.map SlotResult.id = ids.take s.slot
  slots_filled : ∀ sr ∈ s.slots, sr.Filled len

/-- The batch ended in a plain OK with one filled entry per device, in list order. -/
def State.BatchDone (s : State) (len : Byte) (ids : List Byte) : Prop :=
  ∃ slots, s.result = some { code := .ok, status := none, data := [], slots := slots }
    ∧ slots.map SlotResult.id = ids ∧ ∀ sr ∈ slots, sr.Filled len

/-- What every part of a step but a link failure and a reset keeps: the batch is still on, or it is done. -/
def State.BatchKept (s : State) (addr len : Byte) (ids : List Byte) (t : Ticks) : Prop :=
  s.InBatch addr len ids t ∨ (s.seq ≠ .await ∧ s.BatchDone len ids)

section
variable {s s' : State} {addr len : Byte} {ids : List Byte} {t : Ticks}

theorem inBatch_of_invariants {p : Params} (hinv : EngineInv p s) (hlog : LogInv s) (hs : s.seq = .await)
    (hc : s.cur = some (.syncRead addr len ids t)) : s.InBatch addr len ids t where
  seq := hs
  cur := hc
  slot_lt := (hinv.slots_resolved addr len ids t hc).1
  slots_id := (hinv.slots_resolved addr len ids t hc).2
  slots_filled sr hsr := filled_of_shaped (hlog.slots_shaped sr hsr) (hlog.slots_data addr len ids t hc sr hsr)

/-- A batch's progress is read off four elements only. -/
theorem State.InBatch.congr (h : s.InBatch addr len ids t) (hseq : s'.seq = s.seq) (hcur : s'.cur = s.cur)
    (hslot : s'.slot = s.slot) (hslots : s'.slots = s.slots) : s'.InBatch addr len ids t where
  seq := hseq.trans h.seq
  cur := hcur.trans h.cur
  slot_lt := hslot ▸ h.slot_lt
  slots_id := hslots ▸ hslot ▸ h.slots_id
  slots_filled := hslots ▸ h.slots_filled

/-- The awaited device's entry goes on to the next device or completes the list. -/
theorem State.InBatch.nextSlot {sr : SlotResult} (h : s.InBatch addr len ids t)
    (hid : ids[s.slot]? = some sr.id) (hfilled : sr.Filled len) :
    (s.nextSlot ids.length sr).BatchKept addr len ids t := by
  have hids : (s.slots ++ [sr]).map SlotResult.id = ids.take (s.slot + 1) := by
    rw [List.take_add_one, hid, List.map_append, h.slots_id]
    rfl
  have hall : ∀ x ∈ s.slots ++ [sr], x.Filled len :=
    List.forall_mem_append.2 ⟨h.slots_filled, List.forall_mem_singleton.2 hfilled⟩
  by_cases hlast : s.slot + 1 = ids.length
  · rw [nextSlot_of_last hlast]
    exact .inr ⟨nofun, _, rfl, by rw [hids, hlast, List.take_length], hall⟩
  · rw [nextSlot_of_more hlast]
    exact .inl ⟨h.seq, h.cur, Nat.lt_of_le_of_ne h.slot_lt hlast, hids, hall⟩

theorem State.InBatch.resolve (h : s.InBatch addr len ids t) (r : FrameResult) :
    (s.resolve r).BatchKept addr len ids t := by
  have hid := List.getElem?_eq_getElem h.slot_lt
  rw [resolve_of_syncRead h.cur hid]
  exact h.nextSlot (by rw [slotResult_id, hid]) (filled_slotResult ..)

theorem State.InBatch.expire (h : s.InBatch addr len ids t) : s.expire.BatchKept addr len ids t := by
  have hid := List.getElem?_eq_getElem h.slot_lt
  rw [expire_of_syncRead h.cur hid]
  exact h.nextSlot hid (filled_only (isSlotError_expiryCode _))

theorem State.BatchKept.settle (scanLimit : Nat) (h : s.BatchKept addr len ids t) :
    (s.settle scanLimit).BatchKept addr len ids t := by
  refine settleLoop_induction (P := fun u => u.BatchKept addr len ids t) ?_ _ s h
  rintro u r n (hu | ⟨hidle, -⟩) hawait -
  · exact State.InBatch.resolve (s := { u with rxfifo := u.rxfifo.drop n }) (hu.congr rfl rfl rfl rfl) r
  · exact absurd hawait hidle

theorem State.InBatch.rxByte (p : Params) (b : Byte) (h : s.InBatch addr len ids t) :
    (s.rxByte p b).BatchKept addr len ids t := by
  rcases rxByte_cases p s b with ⟨-, hb⟩ | ⟨-, -, hb⟩ | ⟨-, -, hb⟩ <;> rw [hb] <;>
    exact .inl (h.congr rfl rfl rfl rfl)

theorem State.InBatch.tick (h : s.InBatch addr len ids t) : s.tick.BatchKept addr len ids t := by
  have hcounted : State.InBatch { s with timer := s.timer + 1 } addr len ids t := h.congr rfl rfl rfl rfl
  rcases tick_cases s with ⟨hn, -⟩ | ⟨-, -, ht⟩ | ⟨-, -, ht⟩
  · exact absurd h.seq hn
  · exact ht ▸ .inl hcounted
  · exact ht ▸ hcounted.expire

/-- Every event of a receive window but a link failure and a reset goes on with the batch or completes it. -/
theorem State.InBatch.handle {p : Params} {e : Event} (h : s.InBatch addr len ids t)
    (he : e.enabled s.seq = true) (hlf : e ≠ .linkFail) (hr : e ≠ .reset) :
    (s.handle p e).BatchKept addr len ids t := by
  cases e with
  | issue => simp [Event.enabled, h.seq] at he
  | txAccept => simp [Event.enabled, h.seq] at he
  | linkFail => exact absurd rfl hlf
  | rxByte b => exact (h.rxByte p b).settle _
  | tick => exact h.tick.settle _
  | reset => exact absurd rfl hr

end

/-! ## The bytes of a slot's reply (R126, R191) -/

theorem decodeResponse_nil (scanLimit : Nat) : decodeResponse scanLimit [] = .incomplete := by
  simp [decodeResponse, findSync, decodeNoSync]

theorem reply_length (id : Byte) (r : SlotReply) : (r.bytes id).length = r.data.length + 6 := by
  simp [SlotReply.bytes]

/-- A whole reply is decoded at once, and its slot's entry is R191's. -/
theorem decodeResponse_reply (p : Params) {id : Byte} {r : SlotReply} (hid : id ≠ 0xFF)
    (hl : r.data.length ≤ 253) :
    ∃ found, decodeResponse p.scanLimit (r.bytes id) = .found found (r.bytes id).length
      ∧ slotResult id r.data.length found = r.entry id := by
  have hlen : (BitVec.ofNat 8 (r.data.length + 2)).toNat = r.data.length + 2 := by
    simp only [BitVec.toNat_ofNat]
    omega
  have hd : (r.bytes id).drop (0 + 2)
      = id :: BitVec.ofNat 8 (r.data.length + 2) :: r.status :: (r.data ++ r.chk :: []) := by
    simp [SlotReply.bytes]
  have hsync : confirmedSync (r.bytes id) 0 := confirmedSync_zero_iff.2 ⟨rfl, rfl, hid⟩
  rw [decodeResponse_of_confirmedSync_zero p hsync, decodeAt_of_whole hd hlen, hlen, reply_length,
    show 0 + 4 + (r.data.length + 2) = r.data.length + 6 by omega]
  by_cases hc : r.chk = checksum id (BitVec.ofNat 8 (r.data.length + 2)) r.status r.data
  · refine ⟨_, if_pos hc, ?_⟩
    rw [slotResult_of_awaited rfl, SlotReply.entry, if_pos hc]
    rfl
  · refine ⟨_, if_neg hc, ?_⟩
    rw [SlotReply.entry, if_neg hc]
    rfl

/-- Until its last byte is there, a reply needs more bytes. -/
theorem decodeResponse_reply_take (p : Params) {id : Byte} {r : SlotReply} {k : Nat} (hid : id ≠ 0xFF)
    (hl : r.data.length ≤ 253) (hk : k < (r.bytes id).length) :
    decodeResponse p.scanLimit ((r.bytes id).take k) = .incomplete := by
  have hlength : ((r.bytes id).take k).length = k := List.length_take_of_le hk.le
  rw [reply_length] at hk
  by_cases h2 : k ≤ 2
  · have hno : ∀ i < p.scanLimit, ¬confirmedSync ((r.bytes id).take k) i := by
      rintro i - ⟨hi, -⟩
      omega
    have := p.scanLimit_pos
    rw [decodeResponse_of_no_sync hno, decodeNoSync, if_neg (by omega)]
  · obtain ⟨m, rfl⟩ : ∃ m, k = m + 3 := ⟨k - 3, by omega⟩
    have hsync : confirmedSync ((r.bytes id).take (m + 3)) 0 := confirmedSync_zero_iff.2 ⟨rfl, rfl, hid⟩
    rw [decodeResponse_of_confirmedSync_zero p hsync, decodeAt_eq, hlength]
    cases m with
    | zero => exact if_pos (by omega)
    | succ m =>
      have hlen : (((r.bytes id).take (m + 1 + 3)).getD (0 + 3) 0).toNat = r.data.length + 2 := by
        show (BitVec.ofNat 8 (r.data.length + 2)).toNat = _
        simp only [BitVec.toNat_ofNat]
        omega
      rw [hlen, if_neg (by omega), if_neg (by omega), if_pos (by omega)]

/-! ## A reply comes in (R187, R191) -/

theorem settleLoop_of_incomplete {scanLimit : Nat} (fuel : Nat) {s : State}
    (h : decodeResponse scanLimit s.rxfifo = .incomplete) : settleLoop scanLimit fuel s = s := by
  cases fuel <;> simp [settleLoop, h]

/-- A line that ends in a byte, or is empty, still ends so after its first event. -/
theorem getLast?_ne_tick_of_cons {o : Option Byte} {line : List (Option Byte)}
    (h : (o :: line).getLast? ≠ some none) : line.getLast? ≠ some none :=
  fun htail => h (by simp [List.getLast?_cons, htail])

theorem eq_nil_of_no_byte {line : List (Option Byte)} (h : line.reduceOption = [])
    (hlast : line.getLast? ≠ some none) : line = [] := by
  rcases line.eq_nil_or_concat with rfl | ⟨l, o, rfl⟩
  · rfl
  · cases o with
    | none => simp at hlast
    | some b => simp [List.reduceOption_append] at h

/-- A SYNC_READ's window is open on a live connection, and the devices of `rest` are still to answer. -/
structure State.AwaitsReplies (s : State) (len : Byte) (ids : List Byte) (t : Ticks) (rest : List Byte) :
    Prop where
  seq : s.seq = .await
  conn : s.conn = .opened
  cur : ∃ addr, s.cur = some (.syncRead addr len ids t)
  rest : ids.drop s.slot = rest

section
variable {p : Params} {s s' : State} {len id : Byte} {ids rest : List Byte} {t : Ticks} {r : SlotReply}

theorem State.AwaitsReplies.congr (h : s.AwaitsReplies len ids t rest) (hseq : s'.seq = s.seq)
    (hconn : s'.conn = s.conn) (hcur : s'.cur = s.cur) (hslot : s'.slot = s.slot) :
    s'.AwaitsReplies len ids t rest where
  seq := hseq.trans h.seq
  conn := hconn.trans h.conn
  cur := hcur ▸ h.cur
  rest := hslot ▸ h.rest

theorem State.AwaitsReplies.awaited_id (h : s.AwaitsReplies len ids t (id :: rest)) :
    ids[s.slot]? = some id := by
  rw [← List.head?_drop, h.rest]
  rfl

theorem State.AwaitsReplies.last_iff (h : s.AwaitsReplies len ids t (id :: rest)) :
    s.slot + 1 = ids.length ↔ rest = [] := by
  have hl := congrArg List.length h.rest
  rw [List.length_drop, List.length_cons] at hl
  rw [← List.length_eq_zero_iff]
  omega

/-- A tick before the slot's timeout only counts. -/
theorem State.AwaitsReplies.handle_tick (h : s.AwaitsReplies len ids t rest)
    (hinc : decodeResponse p.scanLimit s.rxfifo = .incomplete) (ht : s.timer.toNat + 1 < t.toNat) :
    s.handle p .tick = { s with timer := s.timer + 1 } ∧ (s.timer + 1).toNat = s.timer.toNat + 1 := by
  have hnext : (s.timer + 1).toNat = s.timer.toNat + 1 := by
    have := t.isLt
    exact BitVec.toNat_add_of_lt (show s.timer.toNat + 1 < 2 ^ 32 by omega)
  obtain ⟨addr, hc⟩ := h.cur
  exact ⟨handle_tick_before_timeout h.seq hinc hc rfl (by omega), hnext⟩

theorem State.AwaitsReplies.handle_rxByte (h : s.AwaitsReplies len ids t rest)
    (hroom : s.rxfifo.length < p.rxFifoDepth) (b : Byte) :
    s.handle p (.rxByte b) = State.settle p.scanLimit { s with heard := true, rxfifo := s.rxfifo ++ [b] } := by
  rw [State.handle, rxByte_of_room b h.conn hroom, heard_or_of_await h.seq]

/-- A FIFO that holds exactly one frame is emptied, and the frame fills the slot. -/
theorem State.AwaitsReplies.settle_of_one_frame {found : FrameResult} {scanLimit : Nat}
    (h : s.AwaitsReplies len ids t (id :: rest))
    (hfound : decodeResponse scanLimit s.rxfifo = .found found s.rxfifo.length) :
    s.settle scanLimit = State.nextSlot { s with rxfifo := [] } ids.length (slotResult id len.toNat found) := by
  obtain ⟨addr, hc⟩ := h.cur
  obtain ⟨fuel, hfuel⟩ := Nat.exists_eq_succ_of_ne_zero (List.length_eq_zero_iff.not.2 (ne_nil_of_found hfound))
  rw [State.settle, hfuel, settleLoop_of_found fuel h.seq hfound, List.drop_length,
    resolve_of_syncRead (s := { s with rxfifo := [] }) hc h.awaited_id]
  exact settleLoop_of_incomplete fuel (by rw [nextSlot_rxfifo]; exact decodeResponse_nil scanLimit)

/-- The rest of the awaited reply comes in before the timeout: its last byte fills the slot with R191's entry. What the
timer and `heard` were does not matter, since the slot's end clears both. -/
theorem State.AwaitsReplies.receive_reply (hid : id ≠ 0xFF) (hl : r.data.length ≤ 253)
    (hdata : r.data.length = len.toNat) (line : List (Option Byte))
    (h : s.AwaitsReplies len ids t (id :: rest)) (hshort : s.rxfifo.length < (r.bytes id).length)
    (hbytes : s.rxfifo ++ line.reduceOption = r.bytes id) (hlast : line.getLast? ≠ some none)
    (htime : s.timer.toNat + line.count none < max 1 t.toNat) :
    s.receive p line = State.nextSlot { s with rxfifo := [] } ids.length (r.entry id) := by
  induction line generalizing s with
  | nil =>
    have hwhole : s.rxfifo = r.bytes id := by simpa using hbytes
    simp [hwhole] at hshort
  | cons o line ih =>
    have htail := getLast?_ne_tick_of_cons hlast
    cases o with
    | none =>
      have hinc : decodeResponse p.scanLimit s.rxfifo = .incomplete := by
        rw [← List.take_left (l₁ := s.rxfifo) (l₂ := (none :: line).reduceOption), hbytes]
        exact decodeResponse_reply_take p hid hl hshort
      rw [List.count_cons_self] at htime
      obtain ⟨htick, hnext⟩ := h.handle_tick hinc (by omega)
      show (s.handle p .tick).receive p line = _
      rw [htick]
      exact ih (s := { s with timer := s.timer + 1 }) (h.congr rfl rfl rfl rfl) hshort hbytes htail (by
        show (s.timer + 1).toNat + _ < _
        omega)
    | some b =>
      have hroom : s.rxfifo.length < p.rxFifoDepth := by
        have := p.rxFifoDepth_ge
        rw [reply_length] at hshort
        omega
      have hkept : State.AwaitsReplies { s with heard := true, rxfifo := s.rxfifo ++ [b] } len ids t (id :: rest) :=
        h.congr rfl rfl rfl rfl
      rw [List.reduceOption_cons_of_some, List.append_cons] at hbytes
      rw [List.count_cons_of_ne (by simp)] at htime
      show (s.handle p (.rxByte b)).receive p line = _
      rw [h.handle_rxByte hroom b]
      by_cases hmore : (s.rxfifo ++ [b]).length < (r.bytes id).length
      · have hinc : decodeResponse p.scanLimit (s.rxfifo ++ [b]) = .incomplete := by
          rw [← List.take_left (l₁ := s.rxfifo ++ [b]) (l₂ := line.reduceOption), hbytes]
          exact decodeResponse_reply_take p hid hl hmore
        rw [settle_of_incomplete (s := { s with heard := true, rxfifo := s.rxfifo ++ [b] }) hinc]
        exact ih hkept hmore hbytes htail htime
      · have hrest : line.reduceOption = [] := by
          rw [← List.length_eq_zero_iff]
          have := congrArg List.length hbytes
          rw [List.length_append] at this
          omega
        rw [hrest, List.append_nil] at hbytes
        obtain ⟨found, hfound, hentry⟩ := decodeResponse_reply p hid hl
        rw [eq_nil_of_no_byte hrest htail, hkept.settle_of_one_frame (by rw [hbytes]; exact hfound), ← hdata, hentry]
        rfl

end

/-- All replies that are still due come in, each before its slot's timeout: every slot gets its own reply's entry. By
induction on the devices still to answer. -/
theorem State.AwaitsReplies.receive_replies {p : Params} {s : State} {len : Byte} {ids rest : List Byte} {t : Ticks}
    {replies : List SlotReply} {lines : List (List (Option Byte))} (hlen : len.toNat ≤ 253)
    (h : s.AwaitsReplies len ids t rest) (hne : rest ≠ []) (hfifo : s.rxfifo = []) (htimer : s.timer = 0)
    (hids : ∀ id ∈ rest, id ≠ 0xFF) (hcount : replies.length = rest.length)
    (hdata : ∀ r ∈ replies, r.data.length = len.toNat)
    (hbytes : lines.map List.reduceOption = List.zipWith SlotReply.bytes rest replies)
    (hlines : ∀ line ∈ lines, line.getLast? ≠ some none ∧ line.count none < max 1 t.toNat) :
    s.receive p lines.flatten
      = s.post ⟨.ok, none, [], s.slots ++ List.zipWith SlotReply.entry rest replies⟩ := by
  induction rest generalizing s replies lines with
  | nil => exact absurd rfl hne
  | cons id rest ih =>
    obtain ⟨r, replies, rfl⟩ := List.exists_cons_of_length_eq_add_one hcount
    obtain ⟨line, lines, rfl, hline, hrest⟩ := List.map_eq_cons_iff.1 hbytes
    obtain ⟨hid, hids⟩ := List.forall_mem_cons.1 hids
    obtain ⟨hr, hdata⟩ := List.forall_mem_cons.1 hdata
    obtain ⟨⟨hlast, htime⟩, hlines⟩ := List.forall_mem_cons.1 hlines
    have hslot : s.receive p line = State.nextSlot { s with rxfifo := [] } ids.length (r.entry id) :=
      h.receive_reply hid (by omega) hr line (by simp [hfifo, reply_length]) (by simp [hfifo, hline]) hlast
        (by simpa [htimer] using htime)
    have hsplit : s.receive p (line :: lines).flatten = (s.receive p line).receive p lines.flatten := by
      simp [State.receive]
    have hempty : { s with rxfifo := [] } = s := by rw [← hfifo]
    rw [hsplit, hslot, hempty]
    by_cases hend : rest = []
    · subst hend
      obtain rfl : lines = [] := by simpa using hrest
      rw [nextSlot_of_last (h.last_iff.2 rfl)]
      simp [State.receive]
    · rw [nextSlot_of_more (h.last_iff.not.2 hend)]
      have hnext : State.AwaitsReplies
          { s with slots := s.slots ++ [r.entry id], slot := s.slot + 1, timer := 0, heard := decide (s.rxfifo ≠ []) }
          len ids t rest :=
        ⟨h.seq, h.conn, h.cur, by rw [← List.tail_drop, h.rest, List.tail_cons]⟩
      rw [ih hnext hend hfifo rfl hids (by simpa using hcount) hdata hrest hlines]
      simp [State.post]

/-! ## The obligations -/

/-- Settles O27: `exec_validates`, with R181's two columns read as the model's. -/
theorem syncWriteValidation : Obligations.SyncWriteValidation := by
  unfold Obligations.SyncWriteValidation
  intro s addr len entries hs
  exact exec_validates (i := .syncWrite addr len entries) hs badArgument_syncWrite_iff.symm decide_eq_true_iff.symm

/-- Settles O28: `exec_validates`, with R184's two columns read as the model's. -/
theorem syncReadValidation : Obligations.SyncReadValidation := by
  unfold Obligations.SyncReadValidation
  intro s addr len ids t hs
  exact exec_validates (i := .syncRead addr len ids t) hs badArgument_syncRead_iff.symm decide_eq_true_iff.symm

/-- Settles O46: a slot is resolved by NextSlot with `slotResult` of what was found (`resolve_of_syncRead`), and each
clause is one of its cases. -/
theorem resolveSlotFollowsItsRule : Obligations.ResolveSlotFollowsItsRule := by
  unfold Obligations.ResolveSlotFollowsItsRule
  intro s addr len id ids t r hc hid
  have hnext (sr : SlotResult) := And.intro (fun h => nextSlot_of_last (s := s) (n := ids.length) h sr)
    (fun h => nextSlot_of_more (s := s) (n := ids.length) h sr)
  dsimp only
  rw [resolve_of_syncRead hc hid]
  refine ⟨?_, ?_, ?_, ?_⟩
  · rintro rfl
    exact hnext _
  · rintro rfl
    exact hnext _
  · rintro rfl
    exact hnext _
  · rintro rid status params rfl
    refine ⟨fun h => ?_, ?_, ?_⟩
    · rw [slotResult_of_wrong_id h]
      exact hnext _
    · rintro rfl h
      rw [slotResult_of_wrong_length h]
      exact hnext _
    · rintro rfl h
      rw [slotResult_of_awaited h]
      exact hnext _

/-- Settles O48: an accepted SYNC_READ lists device IDs and asks for at most 253 bytes of each, so every reply is a
frame that starts at its sync and fills its slot alone (`receive_replies`). -/
theorem oneCorruptReplyDoesNotSpoilTheOthers : Obligations.OneCorruptReplyDoesNotSpoilTheOthers := by
  unfold Obligations.OneCorruptReplyDoesNotSpoilTheOthers
  intro p s addr len ids t replies lines hinv hs hc hslot hfifo htimer hcount hdata hbytes hlines
  have hargs := badArgument_of_accepted (hinv.cur_accepted _ hc)
  rw [Bool.eq_false_iff, ne_eq, badArgument_syncRead_iff] at hargs
  push Not at hargs
  obtain ⟨hne, -, hlen, hunicast, -⟩ := hargs
  obtain ⟨-, hslots⟩ := hinv.slots_resolved _ _ _ _ hc
  have hnone : s.slots = [] := by simpa [hslot] using hslots
  have hwindow : s.AwaitsReplies len ids t ids := ⟨hs, hinv.busy_open (by simp [hs]), ⟨addr, hc⟩, by simp [hslot]⟩
  have hids : ∀ id ∈ ids, id ≠ 0xFF := by
    rintro id hid rfl
    exact absurd (hunicast _ hid) (by decide)
  rw [hwindow.receive_replies hlen hne hfifo htimer hids hcount hdata hbytes hlines, hnone]
  rfl

/-- Settles O49: a link failure posts IO_ERROR (`handle_linkFail`); any other event goes on with the batch or completes
it (`State.InBatch.handle`). -/
theorem completedSyncReadHasOneEntryPerDevice : Obligations.CompletedSyncReadHasOneEntryPerDevice := by
  unfold Obligations.CompletedSyncReadHasOneEntryPerDevice
  intro p s addr len ids t e hinv hlog hs hc he hleft hr
  refine ⟨?_, fun hlf => ?_⟩
  · rintro rfl
    rw [handle_linkFail]
    rfl
  · rcases (inBatch_of_invariants hinv hlog hs hc).handle (p := p) he hlf hr with hon | ⟨-, hdone⟩
    · exact absurd hon.seq hleft
    · exact hdone

end Sys2Proof.Machine
end

-- What a decode takes off the FIFO, and the end of Settle.
section
/-! SUPPORT. A decode that finds something takes at least one byte (41_codec.md R133), so Settle's count of passes never
ends its loop before the rule does (42_transactions.md R145). -/

namespace Sys2Proof.Machine

/-! ## The bytes a decode consumes (R133) -/

/-- Whatever a header behind the sync at `i` leads to consumes the header and no more than there is. -/
theorem consumed_of_decodeAt {i n : Nat} {s : List Byte} {r : FrameResult} (h : decodeAt i s = .found r n) :
    1 ≤ n ∧ n ≤ s.length := by
  obtain ⟨-, rfl, hl⟩ | ⟨id, len, b4, tail, hd, -, rfl, hl, -⟩ := decodeAt_cases h
  · omega
  · have hlength := congrArg List.length hd
    simp only [List.length_drop, List.length_cons] at hlength
    omega

theorem consumed_of_decodeResponse {p : Params} {s : List Byte} {r : FrameResult} {n : Nat}
    (h : decodeResponse p.scanLimit s = .found r n) : 1 ≤ n ∧ n ≤ s.length := by
  obtain ⟨-, rfl, hl⟩ | ⟨i, -, -, hat⟩ := decodeResponse_cases h
  · have := p.scanLimit_pos
    omega
  · exact consumed_of_decodeAt hat

/-! ## The end of Settle (R145) -/

/-- Resolving a frame leaves the FIFO alone: the loop has already consumed the frame. -/
@[simp] theorem resolve_rxfifo (s : State) (r : FrameResult) : (s.resolve r).rxfifo = s.rxfifo := by
  rcases resolve_cases s r with h | ⟨_, _, _, h⟩ | ⟨_, _, _, _, _, _, _, h⟩ <;> simp [h]

/-- As many passes as the FIFO holds bytes are enough. -/
theorem incomplete_of_settleLoop_await {p : Params} :
    ∀ (fuel : Nat) {s : State}, s.rxfifo.length ≤ fuel → (settleLoop p.scanLimit fuel s).seq = .await →
      decodeResponse p.scanLimit (settleLoop p.scanLimit fuel s).rxfifo = .incomplete
  | 0, s, hfuel, _ => by
    have hnil : s.rxfifo = [] := by simpa using hfuel
    exact hnil ▸ decodeResponse_nil p.scanLimit
  | fuel + 1, s, hfuel, hawait => by
    by_cases hs : s.seq = .await
    · cases hr : decodeResponse p.scanLimit s.rxfifo with
      | incomplete => rwa [settleLoop_of_incomplete _ hr]
      | found r n =>
        obtain ⟨hn, -⟩ := consumed_of_decodeResponse hr
        rw [settleLoop_of_found fuel hs hr] at hawait ⊢
        refine incomplete_of_settleLoop_await fuel ?_ hawait
        simp only [resolve_rxfifo, List.length_drop]
        omega
    · rw [settleLoop_of_not_await _ hs] at hawait
      exact absurd hawait hs

theorem incomplete_of_settle_await {p : Params} {s : State} (h : (s.settle p.scanLimit).seq = .await) :
    decodeResponse p.scanLimit (s.settle p.scanLimit).rxfifo = .incomplete :=
  incomplete_of_settleLoop_await _ le_rfl h

/-! ## The obligations -/

/-- Settles O10: a decode finds a frame behind its sync (`consumed_of_decodeAt`), or gives up the scan limit's bytes. -/
theorem decodeConsumesAtLeastOneByte : Obligations.DecodeConsumesAtLeastOneByte := by
  unfold Obligations.DecodeConsumesAtLeastOneByte
  exact fun _ _ _ _ => consumed_of_decodeResponse

/-- Settles O44, by induction on Settle's passes, each of which takes a byte off the FIFO
(`incomplete_of_settleLoop_await`). -/
theorem settleLeavesNothingToDecode : Obligations.SettleLeavesNothingToDecode := by
  unfold Obligations.SettleLeavesNothingToDecode
  exact fun _ _ => incomplete_of_settle_await

end Sys2Proof.Machine
end

-- The invariants of the engine and of its logs.
section
/-! SUPPORT. Reset meets the invariants and every event keeps them (10_state.md R38, R42; 30_encoding.md R88, R90). The
engine's invariant is proved by the kind of state an event leaves: at rest, SENDING, or in a receive window that Settle
has yet to look at. -/

namespace Sys2Proof.Machine

/-! ## What each kind of state must meet (R38) -/

/-- The link's part of the invariant: the FIFO fits, and a closed connection has neither bytes nor a rate (R22, R38 (d)
and (e)). -/
structure State.LinkOk (p : Params) (s : State) : Prop where
  fifo_bounded : s.rxfifo.length ≤ p.rxFifoDepth
  closed_fifo : s.conn = .closed → s.rxfifo = []
  closed_baud : s.conn = .closed → s.baud = none

/-- Every working element is clear, as Post and Reset leave them (R42, R205). -/
structure State.AtRest (s : State) : Prop where
  seq : s.seq = .idle
  cur : s.cur = none
  txbuf : s.txbuf = []
  txpos : s.txpos = 0
  timer : s.timer = 0
  heard : s.heard = false
  slot : s.slot = 0
  slots : s.slots = []

/-- The receive window of a command, whatever bytes wait in the FIFO and however many ticks have passed: R38 but for
(c), which Settle restores, and R109. -/
structure State.InWindow (p : Params) (s : State) (c : Command) : Prop where
  link : s.LinkOk p
  seq : s.seq = .await
  conn : s.conn = .opened
  cur : s.cur = some c
  accepted : accepted c = true
  awaits : awaits c = true
  txbuf : s.txbuf = []
  txpos : s.txpos = 0
  slots_resolved : ∀ addr len ids t, c = .syncRead addr len ids t →
    s.slot < ids.length ∧ s.slots.map SlotResult.id = ids.take s.slot
  slots_nil : (∀ addr len ids t, c ≠ .syncRead addr len ids t) → s.slot = 0 ∧ s.slots = []

/-- A window has not reached its command's timeout (R109). -/
def State.InTime (s : State) (c : Command) : Prop := ∀ t, timeoutOf c = some t → s.timer.toNat < max 1 t.toNat

section
variable {p : Params} {s : State} {c : Command}

theorem EngineInv.linkOk (h : EngineInv p s) : s.LinkOk p := ⟨h.fifo_bounded, h.closed_fifo, h.closed_baud⟩

theorem linkOk_of_opened (hc : s.conn = .opened) (hl : s.rxfifo.length ≤ p.rxFifoDepth) : s.LinkOk p :=
  ⟨hl, by simp [hc], by simp [hc]⟩

theorem disconnect_linkOk (p : Params) (s : State) : s.disconnect.LinkOk p :=
  ⟨Nat.zero_le _, fun _ => rfl, fun _ => rfl⟩

theorem post_atRest (s : State) (r : Result) : (s.post r).AtRest := ⟨rfl, rfl, rfl, rfl, rfl, rfl, rfl, rfl⟩

theorem State.AtRest.engineInv (h : s.AtRest) (hlink : s.LinkOk p) : EngineInv p s := by
  obtain ⟨hseq, hcur, htxbuf, htxpos, htimer, hheard, hslot, hslots⟩ := h
  exact { hlink with
    busy_open := absurd hseq
    cur_none_iff := by simp [hseq, hcur]
    sending_iff := by simp [hseq, htxbuf]
    txbuf_nil := fun _ => ⟨htxbuf, htxpos⟩
    txlog_sent := ⟨s.txlog, by simp [htxbuf]⟩
    cur_accepted := by simp [hcur]
    txbuf_frame := by simp [hseq]
    window_awaits := by simp [hseq]
    window_incomplete := by simp [hseq]
    timer_zero := fun _ => htimer
    heard_false := fun _ => hheard
    timer_below := by simp [hseq]
    slots_resolved := by simp [hcur]
    slots_nil := fun _ => ⟨hslot, hslots⟩ }

theorem State.LinkOk.post (h : s.LinkOk p) (r : Result) : EngineInv p (s.post r) :=
  (post_atRest s r).engineInv ⟨h.fifo_bounded, h.closed_fifo, h.closed_baud⟩

theorem resetEngine_engineInv (p : Params) (s : State) : EngineInv p s.resetEngine :=
  State.AtRest.engineInv ⟨rfl, rfl, rfl, rfl, rfl, rfl, rfl, rfl⟩ ⟨Nat.zero_le _, fun _ => rfl, fun _ => rfl⟩

/-- A window in time in which nothing can be decoded meets the invariant. -/
theorem State.InWindow.engineInv (h : s.InWindow p c) (htime : s.InTime c)
    (hinc : decodeResponse p.scanLimit s.rxfifo = .incomplete) : EngineInv p s where
  busy_open _ := h.conn
  cur_none_iff := by simp [h.cur, h.seq]
  sending_iff := by simp [h.seq, h.txbuf]
  txbuf_nil _ := ⟨h.txbuf, h.txpos⟩
  txlog_sent := ⟨s.txlog, by simp [h.txbuf]⟩
  cur_accepted := by simp [h.cur, h.accepted]
  txbuf_frame := by simp [h.seq]
  window_awaits := by simp [h.cur, h.awaits]
  window_incomplete _ := hinc
  fifo_bounded := h.link.fifo_bounded
  closed_fifo := h.link.closed_fifo
  closed_baud := h.link.closed_baud
  timer_zero := by simp [h.seq]
  heard_false := by simp [h.seq]
  timer_below _ u hu := htime u (by simpa [h.cur] using hu)
  slots_resolved := by simpa [h.cur] using h.slots_resolved
  slots_nil hsync := h.slots_nil (by simpa [h.cur] using hsync h.seq)

theorem EngineInv.inWindow (h : EngineInv p s) (hs : s.seq = .await) : ∃ c, s.InWindow p c ∧ s.InTime c := by
  cases hc : s.cur with
  | none => simp [h.cur_none_iff.1 hc] at hs
  | some c =>
    obtain ⟨htxbuf, htxpos⟩ := h.txbuf_nil (by simp [hs])
    have hw : s.InWindow p c := ⟨h.linkOk, hs, h.busy_open (by simp [hs]), hc, h.cur_accepted c hc,
      h.window_awaits hs c hc, htxbuf, htxpos, by simpa [hc] using h.slots_resolved,
      fun hsync => h.slots_nil (by simpa [hc] using fun _ => hsync)⟩
    exact ⟨c, hw, fun u hu => h.timer_below hs u (by simp [hc, hu])⟩

end

/-! ## Settle restores the invariant (R145) -/

/-- What Settle starts from: a receive window in time, or a state outside AWAIT that meets the invariant. -/
def State.ReadyToSettle (p : Params) (s : State) : Prop :=
  (∃ c, s.InWindow p c ∧ s.InTime c) ∨ (s.seq ≠ .await ∧ EngineInv p s)

/-- A single-device window expires in one code, whichever it is. -/
theorem exists_expire_of_single {s : State} {c : Command} (hc : s.cur = some c)
    (hsync : ∀ addr len ids t, c ≠ .syncRead addr len ids t) : ∃ code, s.expire = s.post (.only code) := by
  cases c with
  | ping id t => exact ⟨_, expire_of_ping hc⟩
  | _ => exact ⟨_, expire_of_other hc nofun hsync⟩

section
variable {p : Params} {s : State} {c : Command} {addr len : Byte} {ids : List Byte} {t : Ticks}

theorem State.LinkOk.readyToSettle_post (h : s.LinkOk p) (r : Result) : (s.post r).ReadyToSettle p :=
  .inr ⟨nofun, h.post r⟩

/-- The slot's outcome completes the batch, or the next device's window opens, with no tick counted. -/
theorem State.InWindow.nextSlot (h : s.InWindow p (.syncRead addr len ids t)) {sr : SlotResult}
    (hid : ids[s.slot]? = some sr.id) : (s.nextSlot ids.length sr).ReadyToSettle p := by
  obtain ⟨hlt, hslots⟩ := h.slots_resolved addr len ids t rfl
  by_cases hlast : s.slot + 1 = ids.length
  · rw [nextSlot_of_last hlast]
    exact h.link.readyToSettle_post _
  · have hids : (s.slots ++ [sr]).map SlotResult.id = ids.take (s.slot + 1) := by
      rw [List.take_add_one, hid, List.map_append, hslots]
      rfl
    rw [nextSlot_of_more hlast]
    refine .inl ⟨.syncRead addr len ids t,
      { h with link := { h.link with }, slots_resolved := ?_, slots_nil := ?_ }, ?_⟩
    · rintro _ _ _ _ ⟨⟩
      exact ⟨Nat.lt_of_le_of_ne hlt hlast, hids⟩
    · exact fun hsync => absurd rfl (hsync addr len ids t)
    · exact fun u _ => Nat.lt_of_lt_of_le Nat.one_pos (Nat.le_max_left 1 u.toNat)

theorem State.InWindow.resolve (h : s.InWindow p c) (r : FrameResult) : (s.resolve r).ReadyToSettle p := by
  by_cases hsync : ∃ addr len ids t, c = .syncRead addr len ids t
  · obtain ⟨addr, len, ids, t, rfl⟩ := hsync
    obtain ⟨hlt, -⟩ := h.slots_resolved addr len ids t rfl
    have hid := List.getElem?_eq_getElem hlt
    rw [resolve_of_syncRead h.cur hid]
    exact h.nextSlot (by rw [slotResult_id, hid])
  · push Not at hsync
    rw [resolve_of_single h.cur hsync]
    exact h.link.readyToSettle_post _

theorem State.InWindow.expire (h : s.InWindow p c) : s.expire.ReadyToSettle p := by
  by_cases hsync : ∃ addr len ids t, c = .syncRead addr len ids t
  · obtain ⟨addr, len, ids, t, rfl⟩ := hsync
    obtain ⟨hlt, -⟩ := h.slots_resolved addr len ids t rfl
    have hid := List.getElem?_eq_getElem hlt
    rw [expire_of_syncRead h.cur hid]
    exact h.nextSlot hid
  · push Not at hsync
    obtain ⟨code, hs⟩ := exists_expire_of_single h.cur hsync
    rw [hs]
    exact h.link.readyToSettle_post _

theorem State.ReadyToSettle.settle (h : s.ReadyToSettle p) : EngineInv p (s.settle p.scanLimit) := by
  have hend : (s.settle p.scanLimit).ReadyToSettle p := by
    refine settleLoop_induction (P := State.ReadyToSettle p) ?_ _ s h
    rintro u r n (⟨c, hw, -⟩ | ⟨hs, -⟩) hawait -
    · have hshorter : (u.rxfifo.drop n).length ≤ p.rxFifoDepth := by
        have := hw.link.fifo_bounded
        rw [List.length_drop]
        omega
      have hconsumed : State.InWindow p { u with rxfifo := u.rxfifo.drop n } c :=
        { hw with link := linkOk_of_opened hw.conn hshorter }
      exact hconsumed.resolve r
    · exact absurd hawait hs
  rcases hend with ⟨c, hw, htime⟩ | ⟨-, hinv⟩
  · exact hw.engineInv htime (incomplete_of_settle_await hw.seq)
  · exact hinv

/-! ## Every event keeps the invariant -/

/-- OPEN posts one code, from a state whose link is in order and whose result log is untouched (R101). -/
theorem openPort_posts (h : s.LinkOk p) (baud : Nat) (present : Bool) :
    ∃ (t : State) (code : ResultCode), s.openPort p baud present = t.post (.only code) ∧ t.LinkOk p
      ∧ t.results = s.results ∧ code ≠ .flags := by
  have hfailed : (if s.conn = .opened then s.disconnect else s).LinkOk p
      ∧ (if s.conn = .opened then s.disconnect else s).results = s.results := by
    split
    · exact ⟨disconnect_linkOk p s, rfl⟩
    · exact ⟨h, rfl⟩
  obtain ⟨hlink, hres⟩ := hfailed
  cases present with
  | false => exact ⟨_, _, openPort_absent p s baud, hlink, hres, nofun⟩
  | true =>
    rcases openPort_cases p s baud true with ⟨-, -, ho⟩ | ⟨_, _, hfails, -⟩
    · exact ⟨_, _, ho, linkOk_of_opened rfl (Nat.zero_le _), rfl, nofun⟩
    · have hb : p.supportsBaud baud = false := by simpa using hfails
      exact ⟨_, _, openPort_unsupported s hb, hlink, hres, nofun⟩

/-- An accepted SYNC_READ lists at least one device. -/
theorem ids_length_pos_of_accepted (h : accepted (.syncRead addr len ids t) = true) : 0 < ids.length := by
  have hargs := badArgument_of_accepted h
  rw [Bool.eq_false_iff, ne_eq, badArgument_syncRead_iff] at hargs
  exact List.length_pos_iff.2 fun hnil => hargs (.inl hnil)

/-- An accepted command's frame is about to be sent by an engine that was at rest (R143). -/
theorem EngineInv.start (h : EngineInv p s) (hs : s.seq = .idle) (ho : s.conn = .opened) (ha : accepted c = true)
    {w : Wire} (hw : frameOf c = some w) (hl : w.params.length ≤ 253) :
    EngineInv p { s with cur := some c, txbuf := w.frame, txpos := 0, seq := .sending } :=
  have hna : s.seq ≠ .await := by simp [hs]
  { h with
    busy_open := fun _ => ho
    cur_none_iff := by simp
    sending_iff := by simp
    txbuf_nil := by simp
    txlog_sent := ⟨s.txlog, by simp⟩
    cur_accepted := by simpa using ha
    txbuf_frame := by simp [hw, encodeFrame_eq_some hl]
    window_awaits := nofun
    window_incomplete := nofun
    timer_zero := fun _ => h.timer_zero hna
    heard_false := fun _ => h.heard_false hna
    timer_below := nofun
    slots_resolved := by
      rintro addr len ids t ⟨⟩
      obtain ⟨hslot, hslots⟩ := h.slots_nil fun hawait => absurd hawait hna
      simpa [hslot, hslots] using ids_length_pos_of_accepted ha
    slots_nil := fun _ => h.slots_nil fun hawait => absurd hawait hna }

theorem EngineInv.handle_issue (h : EngineInv p s) (hs : s.seq = .idle) (c : Command) :
    EngineInv p (s.handle p (.issue c)) := by
  have hlatched : State.LinkOk p { s with cur := some c } := { h.linkOk with }
  rcases handle_issue_cases p c hs with ⟨baud, present, rfl, hi⟩ | ⟨rfl, hi⟩ | ⟨hf, hi⟩ <;> rw [hi]
  · obtain ⟨t, code, ho, hlink, -⟩ := openPort_posts h.linkOk baud present
    exact ho ▸ hlink.post _
  · exact (disconnect_linkOk p _).post _
  · rcases issue_cases hs hf with ⟨-, hp⟩ | ⟨-, -, hp⟩ | ⟨-, -, -, hp⟩ | ⟨ho, ha, w, hw, hl, hp⟩ <;> rw [hp]
    · exact hlatched.post _
    · exact hlatched.post _
    · exact hlatched.post _
    · exact h.start hs ho ha hw hl

/-- The UART takes a byte: more of the frame is left, or Sent opens the window or posts (R104, R144). -/
theorem EngineInv.txAccept (h : EngineInv p s) (hs : s.seq = .sending) : s.txAccept.ReadyToSettle p := by
  obtain ⟨-, hpos⟩ := h.sending_iff.1 hs
  have hb : s.txbuf[s.txpos]? = some s.txbuf[s.txpos] := List.getElem?_eq_getElem hpos
  have hna : s.seq ≠ .await := by simp [hs]
  by_cases hl : s.txpos + 1 = s.txbuf.length
  · obtain ⟨c, hc⟩ : ∃ c, s.cur = some c := by
      refine Option.ne_none_iff_exists'.1 fun hc => ?_
      simp [h.cur_none_iff.1 hc] at hs
    obtain ⟨hslot, hslots⟩ := h.slots_nil fun hawait => absurd hawait hna
    have hlink : State.LinkOk p { s with txlog := s.txlog ++ [s.txbuf[s.txpos]], txpos := s.txpos + 1 } :=
      { h.linkOk with }
    rw [txAccept_of_last hb hl]
    rcases sent_cases (s := { s with txlog := s.txlog ++ [s.txbuf[s.txpos]], txpos := s.txpos + 1 }) hc
      with ⟨ha, hsent⟩ | ⟨-, hsent⟩ <;> rw [hsent]
    · refine .inl ⟨c, ⟨{ hlink with }, rfl, h.busy_open (by simp [hs]), hc, h.cur_accepted c hc, ha, rfl, rfl, ?_,
        fun _ => ⟨rfl, hslots⟩⟩, fun u _ => Nat.lt_of_lt_of_le Nat.one_pos (Nat.le_max_left 1 u.toNat)⟩
      rintro addr len ids t rfl
      simpa [hslots] using ids_length_pos_of_accepted (h.cur_accepted _ hc)
    · exact hlink.readyToSettle_post _
  · rw [txAccept_of_more hb hl]
    obtain ⟨before, hlog⟩ := h.txlog_sent
    refine .inr ⟨hna, { h with sending_iff := ?_, txbuf_nil := ?_, txlog_sent := ⟨before, ?_⟩ }⟩
    · simp only [hs, true_iff]
      omega
    · exact fun hn => absurd hs hn
    · show s.txlog ++ _ = _
      rw [hlog, List.append_assoc, List.take_append_getElem hpos]

theorem EngineInv.rxByte (h : EngineInv p s) (b : Byte) : (s.rxByte p b).ReadyToSettle p := by
  by_cases hs : s.seq = .await
  · obtain ⟨c, hw, htime⟩ := h.inWindow hs
    rcases rxByte_cases p s b with ⟨hc, -⟩ | ⟨ho, hroom, hb⟩ | ⟨ho, -, hb⟩
    · simp [hw.conn] at hc
    · rw [hb]
      exact .inl ⟨c, { hw with link := linkOk_of_opened ho (by simpa using hroom) }, htime⟩
    · rw [hb]
      exact .inl ⟨c, { hw with link := { h.linkOk with } }, htime⟩
  · refine .inr ⟨by simpa using hs, ?_⟩
    rcases rxByte_cases p s b with ⟨-, hb⟩ | ⟨ho, hroom, hb⟩ | ⟨-, -, hb⟩
    · rwa [hb]
    · rw [hb, heard_or_of_not_await hs]
      exact { h with
        window_incomplete := fun hawait => absurd hawait hs
        fifo_bounded := by simpa using hroom
        closed_fifo := fun hc => by simp [ho] at hc }
    · rw [hb, heard_or_of_not_await hs]
      exact { h with }

theorem EngineInv.tick (h : EngineInv p s) : s.tick.ReadyToSettle p := by
  rcases tick_cases s with ⟨hs, ht⟩ | ⟨hs, hbefore, ht⟩ | ⟨hs, -, ht⟩
  · rw [ht]
    exact .inr ⟨hs, h⟩
  all_goals
    obtain ⟨c, hw, -⟩ := h.inWindow hs
    have hcounted : State.InWindow p { s with timer := s.timer + 1 } c := { hw with link := { hw.link with } }
    rw [ht]
  · refine .inl ⟨c, hcounted, fun t hct => ?_⟩
    exact Nat.lt_of_lt_of_le (hbefore t (by simp [hw.cur, hct])) (Nat.le_max_right 1 t.toNat)
  · exact hcounted.expire

/-- Every enabled event keeps the invariant: it leaves a state at rest, a frame being sent, or a window that Settle
settles. -/
theorem EngineInv.handle (h : EngineInv p s) {e : Event} (he : e.enabled s.seq = true) :
    EngineInv p (s.handle p e) := by
  cases e with
  | issue c => exact h.handle_issue (issue_enabled.1 he) c
  | txAccept => exact (h.txAccept (by simpa [Event.enabled] using he)).settle
  | linkFail => exact handle_linkFail p s ▸ (disconnect_linkOk p s).post _
  | rxByte b => exact (h.rxByte b).settle
  | tick => exact h.tick.settle
  | reset => exact handle_reset p s ▸ resetEngine_engineInv p s

end

/-! ## The shape of results (R34, R88, R90) -/

theorem statusMatches_statusCode (status : Byte) : statusMatches (statusCode status) (some status) = true := by
  by_cases h : status = 0
  · rw [statusCode, if_pos h, h]
    rfl
  · rw [statusCode, if_neg h]
    exact bne_iff_ne.2 h

theorem shaped_only {code : ResultCode} (h : code ≠ .flags) : (Result.only code).shaped = true := by
  cases code with
  | flags => exact absurd rfl h
  | _ => rfl

theorem shaped_singleResult (c : Command) (slot : Nat) (r : FrameResult) : (singleResult c slot r).shaped = true := by
  cases r with
  | ok id status params =>
    simp only [singleResult]
    split
    · rfl
    · split
      · rfl
      · simp [Result.shaped, statusMatches_statusCode]
  | _ => rfl

theorem shaped_batch {slots : List SlotResult} (h : ∀ sr ∈ slots, sr.shaped = true) :
    (⟨.ok, none, [], slots⟩ : Result).shaped = true := by
  simpa [Result.shaped] using h

/-- An entry with its status and `len` bytes, or with an error code and neither, has its shape. -/
theorem shaped_of_filled {len : Byte} {sr : SlotResult} (h : sr.Filled len) :
    sr.shaped = true ∧ (sr.status.isSome = true → sr.data.length = len.toNat) := by
  rcases h with ⟨⟨status, hstatus, hcode⟩, hdata⟩ | ⟨hcode, hstatus, hdata⟩
  · have hmatch := statusMatches_statusCode status
    rw [statusCode, ← hcode] at hmatch
    exact ⟨by simp [SlotResult.shaped, hstatus, hmatch], fun _ => hdata⟩
  · exact ⟨by simp [SlotResult.shaped, hcode, hstatus, hdata], by simp [hstatus]⟩

section
variable {p : Params} {s s' : State} {addr len : Byte} {ids : List Byte} {t : Ticks}

theorem LogInv.congr (h : LogInv s) (hcur : s'.cur = s.cur) (hslots : s'.slots = s.slots)
    (hresult : s'.result = s.result) (hresults : s'.results = s.results) : LogInv s' where
  results_shaped := hresults ▸ h.results_shaped
  slots_shaped := hslots ▸ h.slots_shaped
  slots_data := hcur ▸ hslots ▸ h.slots_data
  result_last := by rw [hresult, hresults, h.result_last]

/-- A posted result of the right shape keeps the logs' invariant; of what it is posted from only the result log
matters. -/
theorem LogInv.post (h : LogInv s) {r : Result} (hr : r.shaped = true) (hres : s'.results = s.results) :
    LogInv (s'.post r) where
  results_shaped := by
    rw [post_results, hres]
    exact List.forall_mem_append.2 ⟨h.results_shaped, List.forall_mem_singleton.2 hr⟩
  slots_shaped := nofun
  slots_data := nofun
  result_last := by simp

theorem LogInv.nextSlot (h : LogInv s) (hc : s.cur = some (.syncRead addr len ids t)) {sr : SlotResult} (n : Nat)
    (hsr : sr.Filled len) : LogInv (s.nextSlot n sr) := by
  obtain ⟨hshaped, hdata⟩ := shaped_of_filled hsr
  have hall : ∀ x ∈ s.slots ++ [sr], x.shaped = true :=
    List.forall_mem_append.2 ⟨h.slots_shaped, List.forall_mem_singleton.2 hshaped⟩
  by_cases hlast : s.slot + 1 = n
  · rw [nextSlot_of_last hlast]
    exact h.post (shaped_batch hall) rfl
  · rw [nextSlot_of_more hlast]
    refine { h with slots_shaped := hall, slots_data := fun addr' len' ids' t' hc' => ?_ }
    obtain ⟨⟩ := hc.symm.trans hc'
    exact List.forall_mem_append.2 ⟨h.slots_data _ _ _ _ hc, List.forall_mem_singleton.2 hdata⟩

theorem LogInv.resolve (h : LogInv s) (r : FrameResult) : LogInv (s.resolve r) := by
  rcases resolve_cases s r with hs | ⟨c, -, -, hs⟩ | ⟨addr, len, ids, t, id, hc, -, hs⟩ <;> rw [hs]
  · exact h
  · exact h.post (shaped_singleResult ..) rfl
  · exact h.nextSlot hc _ (filled_slotResult ..)

theorem LogInv.expire (h : LogInv s) : LogInv s.expire := by
  rcases expire_cases s with hs | ⟨code, hcode, hs⟩ | ⟨addr, len, ids, t, id, hc, -, hs⟩ <;> rw [hs]
  · exact h
  · rcases hcode with rfl | rfl <;> exact h.post rfl rfl
  · exact h.nextSlot hc _ (filled_only (isSlotError_expiryCode _))

theorem LogInv.settle (h : LogInv s) (scanLimit : Nat) : LogInv (s.settle scanLimit) :=
  settleLoop_induction (P := LogInv)
    (fun u r n hu _ _ => LogInv.resolve (s := { u with rxfifo := u.rxfifo.drop n }) (hu.congr rfl rfl rfl rfl) r) _ s h

theorem LogInv.sent (h : LogInv s) : LogInv s.sent := by
  cases hc : s.cur with
  | none =>
    have hs : s.sent = s := by simp [State.sent, hc]
    rwa [hs]
  | some c =>
    rcases sent_cases hc with ⟨-, hs⟩ | ⟨-, hs⟩ <;> rw [hs]
    · exact h.congr rfl rfl rfl rfl
    · exact h.post rfl rfl

theorem LogInv.txAccept (h : LogInv s) : LogInv s.txAccept := by
  rcases txAccept_cases s with ⟨-, hs⟩ | ⟨b, -, ⟨-, hs⟩ | ⟨-, hs⟩⟩ <;> rw [hs]
  · exact h
  · exact h.congr rfl rfl rfl rfl
  · exact LogInv.sent (h.congr rfl rfl rfl rfl)

theorem LogInv.rxByte (h : LogInv s) (p : Params) (b : Byte) : LogInv (s.rxByte p b) := by
  rcases rxByte_cases p s b with ⟨-, hs⟩ | ⟨-, -, hs⟩ | ⟨-, -, hs⟩ <;> rw [hs]
  · exact h
  · exact h.congr rfl rfl rfl rfl
  · exact h.congr rfl rfl rfl rfl

theorem LogInv.tick (h : LogInv s) : LogInv s.tick := by
  rcases tick_cases s with ⟨-, hs⟩ | ⟨-, -, hs⟩ | ⟨-, -, hs⟩ <;> rw [hs]
  · exact h
  · exact h.congr rfl rfl rfl rfl
  · exact LogInv.expire (h.congr rfl rfl rfl rfl)

/-- The command that an Issue step latches finds no slots of an earlier one, since the engine was at rest (R38). -/
theorem LogInv.handle_issue (h : LogInv s) (hinv : EngineInv p s) (hs : s.seq = .idle) (c : Command) :
    LogInv (s.handle p (.issue c)) := by
  rcases handle_issue_cases p c hs with ⟨baud, present, rfl, hi⟩ | ⟨rfl, hi⟩ | ⟨hf, hi⟩ <;> rw [hi]
  · obtain ⟨t, code, ho, -, hres, hcode⟩ := openPort_posts hinv.linkOk baud present
    exact ho ▸ h.post (shaped_only hcode) hres
  · exact h.post rfl rfl
  · rcases issue_cases hs hf with ⟨-, hp⟩ | ⟨-, -, hp⟩ | ⟨-, -, -, hp⟩ | ⟨-, -, w, -, -, hp⟩ <;> rw [hp]
    · exact h.post rfl rfl
    · exact h.post rfl rfl
    · exact h.post rfl rfl
    · obtain ⟨-, hslots⟩ := hinv.slots_nil (by simp [hs])
      exact { h with slots_data := by simp [hslots] }

theorem resetEngine_logInv (s : State) : LogInv s.resetEngine :=
  ⟨nofun, nofun, nofun, rfl⟩

theorem LogInv.handle (h : LogInv s) (hinv : EngineInv p s) {e : Event} (he : e.enabled s.seq = true) :
    LogInv (s.handle p e) := by
  cases e with
  | issue c => exact h.handle_issue hinv (issue_enabled.1 he) c
  | txAccept => exact h.txAccept.settle _
  | linkFail => exact handle_linkFail p s ▸ h.post rfl rfl
  | rxByte b => exact (h.rxByte p b).settle _
  | tick => exact h.tick.settle _
  | reset => exact handle_reset p s ▸ resetEngine_logInv s

end

/-! ## The obligations -/

/-- Settles O53: the state at reset is what the Reset event leaves. -/
theorem resetMeetsTheInvariants : Obligations.ResetMeetsTheInvariants := by
  unfold Obligations.ResetMeetsTheInvariants
  exact ⟨resetEngine_engineInv _ State.reset, resetEngine_logInv State.reset⟩

/-- Settles O54: a step waits or handles one enabled event (`step_cases`), and every enabled event keeps the invariant
(`EngineInv.handle`). The environment's events are no part of it. -/
theorem everyStepKeepsTheEngineInvariant : Obligations.EveryStepKeepsTheEngineInvariant := by
  unfold Obligations.EveryStepKeepsTheEngineInvariant
  intro s s' hinv hstep
  rcases step_cases hstep with ⟨-, rfl⟩ | ⟨e, rest, htaken, rfl⟩
  · exact hinv
  · obtain ⟨he, -⟩ := takeEnabled_eq_some htaken
    exact EngineInv.handle (s := { s with inbox := rest }) { hinv with } he

/-- Settles O55: a step waits or handles one enabled event (`step_cases`), and every enabled event keeps the shape of
the logs (`LogInv.handle`). -/
theorem everyStepKeepsResultsShaped : Obligations.EveryStepKeepsResultsShaped := by
  unfold Obligations.EveryStepKeepsResultsShaped
  intro s s' hinv hlog hstep
  rcases step_cases hstep with ⟨-, rfl⟩ | ⟨e, rest, htaken, rfl⟩
  · exact hlog
  · obtain ⟨he, -⟩ := takeEnabled_eq_some htaken
    exact LogInv.handle (s := { s with inbox := rest }) { hlog with } (p := Config.params) { hinv with } he

end Sys2Proof.Machine
end

-- Well-formed instructions: what the engine accepts and the frame it starts.
section
/-! SUPPORT. An instruction is well-formed exactly when the engine's validation accepts it (42_transactions.md R142,
43_group.md R181, R184), and then its Issue step starts the instruction's encoding (R143). -/

namespace Sys2Proof.Machine

/-! ## Well-formed and accepted (R142) -/

theorem isDeviceList_iff {ids : List Byte} :
    isDeviceList ids = true ↔ ids ≠ [] ∧ (∀ id ∈ ids, id.toNat ≤ 253) ∧ ids.Nodup := by
  simp [isDeviceList, isUnicast, and_assoc]

theorem isReadLength_iff {len : Byte} : isReadLength len = true ↔ len ≠ 0 ∧ len.toNat ≤ 253 := by
  rw [isReadLength, Bool.and_eq_true, decide_eq_true_eq, decide_eq_true_eq, Nat.one_le_iff_ne_zero, ne_eq,
    toNat_eq_zero_iff]

/-- The ranges of the rows' operands and the two columns of R142 say the same of every instruction. -/
theorem wf_iff (i : Instr) :
    i.wf = true ↔ ¬badArgument (commandOf i) = true ∧ ¬paramsTooLarge (commandOf i) = true := by
  cases i with
  | ping | action | reboot => simp [Instr.wf, commandOf, badArgument, paramsTooLarge, isUnicast, isFrameId]
  | read id addr len t =>
    rw [commandOf, badArgument_read_iff]
    simp only [Instr.wf, Bool.and_eq_true, isReadLength_iff, isUnicast, decide_eq_true_eq, paramsTooLarge]
    push Not
    simp
  | write id addr data t | regWrite id addr data t =>
    simp only [Instr.wf, commandOf, badArgument, paramsTooLarge, isFrameId, isWriteData, Bool.and_eq_true,
      Bool.or_eq_true, decide_eq_true_eq]
    omega
  | restoreParams | backupParams | reset | positionCalibrate =>
    simp [Instr.wf, commandOf, badArgument, paramsTooLarge, isFrameId, fitsFrame]
  | syncRead addr len ids t =>
    rw [commandOf, badArgument_syncRead_iff]
    simp only [Instr.wf, Bool.and_eq_true, isReadLength_iff, isDeviceList_iff, decide_eq_true_eq, paramsTooLarge]
    push Not
    rw [show 2 + ids.length ≤ 253 ↔ ids.length ≤ 251 by omega]
    tauto
  | syncWrite addr len entries =>
    rw [commandOf, badArgument_syncWrite_iff]
    simp only [Instr.wf, Bool.and_eq_true, isDeviceList_iff, sameShape, decide_eq_true_eq, paramsTooLarge,
      List.all_eq_true, List.forall_mem_map, Nat.one_le_iff_ne_zero, ne_eq, toNat_eq_zero_iff, List.map_eq_nil_iff]
    push Not
    rw [show 2 + entries.length * (len.toNat + 1) ≤ 253 ↔ entries.length * (len.toNat + 1) ≤ 251 by omega]
    tauto

/-- R141 to R143 for a well-formed instruction: the command is latched and its encoding is about to be sent. -/
theorem exec_of_wf {i : Instr} {s : State} (hs : s.seq = .idle) (ho : s.conn = .opened) (hwf : i.wf = true) :
    exec i s = .next (sendingState s (commandOf i) (encode i)) := by
  obtain ⟨hargs, hsize⟩ := (wf_iff i).1 hwf
  have hframe := frameOf_commandOf i
  rw [exec_eq]
  obtain ⟨hc, -⟩ | ⟨-, hb, -⟩ | ⟨-, -, hl, -⟩ | ⟨-, -, w, hw, -, h⟩ :=
    issue_cases (c := commandOf i) hs (by rw [hframe]; rfl)
  · simp [ho] at hc
  · exact absurd hb hargs
  · exact absurd hl hsize
  · cases hframe.symm.trans hw
    exact congrArg Host.Outcome.next h

/-! ## Frames in byte arithmetic (R71, R82, R121) -/

theorem byteSum_cons (b : Byte) (s : List Byte) : byteSum (b :: s) = b + byteSum s := rfl

theorem byteSum_eq_ofNat (s : List Byte) : byteSum s = BitVec.ofNat 8 (sumBytes s) := by
  induction s with
  | nil => rfl
  | cons b s ih => simp [byteSum_cons, ih, BitVec.ofNat_add]

/-- The checksum is the complement of the sum in byte arithmetic. -/
theorem checksum_eq_not_sum (id len b4 : Byte) (params : List Byte) :
    checksum id len b4 params = ~~~(id + len + b4 + byteSum params) := by
  simp [checksum, byteSum_eq_ofNat, BitVec.ofNat_add]

/-- A well-formed instruction starts its frame, with LEN and the sum under the checksum given in byte arithmetic. -/
theorem exec_starts_frame {i : Instr} {s : State} {n : Nat} {sum : Byte} (hs : s.seq = .idle) (ho : s.conn = .opened)
    (hwf : i.wf = true) (hn : i.params.length + 2 = n)
    (hsum : i.frameId + BitVec.ofNat 8 n + i.opcode.code + byteSum i.params = sum) :
    exec i s = .next (sendingState s (commandOf i)
      ([0xFF, 0xFF, i.frameId, BitVec.ofNat 8 n, i.opcode.code] ++ i.params ++ [~~~sum])) := by
  rw [exec_of_wf hs ho hwf, ← hsum, ← hn, ← checksum_eq_not_sum]
  rfl

theorem entryBlocks_length {entries : List Entry} {n : Nat} (h : ∀ e ∈ entries, e.data.length = n) :
    (entryBlocks entries).length = entries.length * (n + 1) := by
  rw [entryBlocks, List.length_flatMap, List.map_congr_left (g := fun _ => n + 1) fun e he => by simp [h e he]]
  simp

/-! ## The obligations -/

/-- Settles O29: validation accepts exactly the well-formed instructions (`wf_iff`), and the first of its two checks
that fails posts its code (`exec_validates`). -/
theorem engineAcceptsExactlyWellFormedInstructions : Obligations.EngineAcceptsExactlyWellFormedInstructions := by
  unfold Obligations.EngineAcceptsExactlyWellFormedInstructions
  intro i s hs ho
  refine ⟨exec_of_wf hs ho, fun hwf => ?_⟩
  obtain ⟨-, hargs, hsize, -⟩ := exec_validates (i := i) hs Iff.rfl Iff.rfl
  by_cases hb : badArgument (commandOf i) = true
  · exact .inl (hargs ho hb)
  · refine .inr (hsize ho hb ?_)
    by_contra hl
    exact Bool.eq_false_iff.1 hwf ((wf_iff i).2 ⟨hb, hl⟩)

/-- Settles O30: the four outcomes of an Issue step in IDLE (`issue_cases`), and its waiting when busy. -/
theorem issuingAnInstructionFrame : Obligations.IssuingAnInstructionFrame := by
  unfold Obligations.IssuingAnInstructionFrame
  intro i s s' h
  rw [exec_eq] at h
  cases h
  by_cases hs : s.seq = .idle
  · rcases issue_cases (c := commandOf i) hs (by rw [frameOf_commandOf]; rfl)
      with ⟨-, h⟩ | ⟨-, -, h⟩ | ⟨-, -, -, h⟩ | ⟨-, -, w, -, -, h⟩ <;> rw [h]
    · exact ⟨⟨rfl, rfl, rfl, rfl, rfl⟩, fun _ => ⟨rfl, .inr ⟨_, rfl⟩⟩, absurd hs⟩
    · exact ⟨⟨rfl, rfl, rfl, rfl, rfl⟩, fun _ => ⟨rfl, .inr ⟨_, rfl⟩⟩, absurd hs⟩
    · exact ⟨⟨rfl, rfl, rfl, rfl, rfl⟩, fun _ => ⟨rfl, .inr ⟨_, rfl⟩⟩, absurd hs⟩
    · exact ⟨⟨rfl, rfl, rfl, rfl, rfl⟩,
        fun _ => ⟨rfl, .inl ⟨rfl, rfl, rfl, rfl, rfl, rfl, rfl, rfl, rfl⟩⟩, absurd hs⟩
  · rw [issue_busy hs]
    exact ⟨⟨rfl, rfl, rfl, rfl, rfl⟩, fun hidle => absurd hidle hs, fun _ => rfl⟩

/-- Settles O18, by `exec_starts_frame`. -/
theorem pingStartsItsFrame : Obligations.PingStartsItsFrame := by
  unfold Obligations.PingStartsItsFrame
  intro s id t hs ho hid
  refine exec_starts_frame (i := .ping id t) (n := 2) hs ho ?_ rfl ?_
  · exact decide_eq_true hid
  · simp [Instr.frameId, Instr.opcode, Instr.params, Opcode.code, byteSum, BitVec.add_assoc]

/-- Settles O19, by `exec_starts_frame`. -/
theorem readStartsItsFrame : Obligations.ReadStartsItsFrame := by
  unfold Obligations.ReadStartsItsFrame
  intro s id addr len t hs ho hid h1 h253
  refine exec_starts_frame (i := .read id addr len t) (n := 4) hs ho ?_ rfl ?_
  · simp [Instr.wf, isUnicast, isReadLength, hid, h1, h253]
  · simp [Instr.frameId, Instr.opcode, Instr.params, Opcode.code, byteSum, BitVec.add_assoc]

/-- Settles O20, by `exec_starts_frame`; the two rows differ in their code only. -/
theorem writesStartTheirFrames : Obligations.WritesStartTheirFrames := by
  unfold Obligations.WritesStartTheirFrames
  intro s id addr data t hs ho hid h1 h252
  have hwf : (isFrameId id && isWriteData data) = true := by simp [isFrameId, isWriteData, hid, h1, h252]
  refine ⟨exec_starts_frame (i := .write id addr data t) (n := data.length + 3) hs ho hwf rfl ?_,
    exec_starts_frame (i := .regWrite id addr data t) (n := data.length + 3) hs ho hwf rfl ?_⟩
  all_goals
    simp [Instr.frameId, Instr.opcode, Instr.params, Opcode.code, byteSum_cons, BitVec.add_assoc]

/-- Settles O21, by `exec_starts_frame`. -/
theorem actionAndRebootStartTheirFrames : Obligations.ActionAndRebootStartTheirFrames := by
  unfold Obligations.ActionAndRebootStartTheirFrames
  intro s id t hs ho hid
  have hwf : isFrameId id = true := decide_eq_true hid
  refine ⟨exec_starts_frame (i := .action id t) (n := 2) hs ho hwf rfl ?_,
    exec_starts_frame (i := .reboot id) (n := 2) hs ho hwf rfl ?_⟩
  all_goals
    simp [Instr.frameId, Instr.opcode, Instr.params, Opcode.code, byteSum, BitVec.add_assoc]

/-- Settles O22, by `exec_starts_frame`: a TXN's frame is the instruction's as it stands. -/
theorem maintenanceStartsItsFrames : Obligations.MaintenanceStartsItsFrames := by
  unfold Obligations.MaintenanceStartsItsFrames
  intro s id params t hs ho hid h253
  have hwf : (isFrameId id && fitsFrame params) = true := by simp [isFrameId, fitsFrame, hid, h253]
  exact ⟨exec_starts_frame (i := .restoreParams id params t) hs ho hwf rfl rfl,
    exec_starts_frame (i := .backupParams id params t) hs ho hwf rfl rfl,
    exec_starts_frame (i := .reset id params t) hs ho hwf rfl rfl,
    exec_starts_frame (i := .positionCalibrate id params t) hs ho hwf rfl rfl⟩

/-- Settles O23, by `exec_starts_frame`. -/
theorem syncReadStartsItsFrame : Obligations.SyncReadStartsItsFrame := by
  unfold Obligations.SyncReadStartsItsFrame
  intro s addr len ids t hs ho h1 h253 hne h251 hids hnodup
  refine exec_starts_frame (i := .syncRead addr len ids t) (n := ids.length + 4) hs ho ?_ rfl ?_
  · have hlist := isDeviceList_iff.2 ⟨List.ne_nil_of_length_pos hne, hids, hnodup⟩
    simp [Instr.wf, isReadLength, hlist, h1, h253, h251]
  · simp [Instr.frameId, Instr.opcode, Instr.params, Opcode.code, broadcastId, byteSum_cons, BitVec.add_assoc]

/-- Settles O24, by `exec_starts_frame`: equally long data make all blocks equally long (`entryBlocks_length`). -/
theorem syncWriteStartsItsFrame : Obligations.SyncWriteStartsItsFrame := by
  unfold Obligations.SyncWriteStartsItsFrame
  intro s addr len entries hs ho h1 hne h251 hentries hnodup
  have hlength := entryBlocks_length fun e he => (hentries e he).2
  refine exec_starts_frame (i := .syncWrite addr len entries) (n := entries.length * (len.toNat + 1) + 4) hs ho ?_ ?_ ?_
  · have hids : ∀ id ∈ entries.map Entry.id, id.toNat ≤ 253 :=
      List.forall_mem_map.2 fun e he => (hentries e he).1
    have hlist := isDeviceList_iff.2 ⟨List.ne_nil_of_length_pos (by rw [List.length_map]; exact hne), hids, hnodup⟩
    have hshape : sameShape len entries = true := by simpa [sameShape] using fun e he => (hentries e he).2
    simp [Instr.wf, hlist, hshape, h1, h251]
  · simp [Instr.params, hlength]
  · simp [Instr.frameId, Instr.opcode, Instr.params, Opcode.code, broadcastId, byteSum_cons, BitVec.add_assoc,
      entryBlocks, List.flatMap]

end Sys2Proof.Machine
end

-- Instruction frames: decoding and encoding.
section
/-! SUPPORT. The listener's decoder of instruction frames (30_encoding.md R71 to R76, R82) reads every well-formed
instruction back from its frame, and what it accepts is the frame of what it answers. -/

namespace Sys2Proof

/-! ## A frame and the bytes after it (R71, R73, R82) -/

theorem decodeBody_of_whole (t : Ticks) (id len inst : Byte) {params : List Byte}
    (hl : len.toNat = params.length + 2) :
    decodeBody t id len (inst :: (params ++ [checksum id len inst params])) = instrOfWire t ⟨id, inst, params⟩ := by
  simp [decodeBody, hl]

/-- The decoder reads from a frame what its ID, instruction byte and parameters say, and leaves the bytes after it. -/
theorem decodeInstr_frame_append {w : Wire} (t : Ticks) (rest : List Byte) (hp : w.params.length ≤ 253)
    (hid : w.id ≠ 0xFF) :
    decodeInstr t (w.frame ++ rest) = (instrOfWire t w).map fun i => (i, rest) := by
  have hl := len_toNat hp
  obtain ⟨body, hbody⟩ : ∃ body, body = w.inst :: (w.params ++ [checksum w.id w.len w.inst w.params]) := ⟨_, rfl⟩
  have hlength : body.length = w.len.toNat := by simp [hbody, hl]
  have hframe : w.frame ++ rest = 0xFF :: 0xFF :: w.id :: w.len :: (body ++ rest) := by simp [Wire.frame, hbody]
  rw [hframe, decodeInstr, if_neg (by simp), if_neg hid, if_neg (by omega),
    if_neg (by rw [List.length_append]; omega), ← hlength, List.take_left, List.drop_left, hbody,
    decodeBody_of_whole _ _ _ _ hl]

theorem decodeBody_eq_ok {t : Ticks} {id len : Byte} {body : List Byte} {i : Instr}
    (h : decodeBody t id len body = .ok i) (hl : body.length = len.toNat) :
    ∃ inst params, len = Wire.len ⟨id, inst, params⟩
      ∧ body = inst :: (params ++ [checksum id len inst params]) ∧ instrOfWire t ⟨id, inst, params⟩ = .ok i := by
  cases body with
  | nil => cases h
  | cons inst tail =>
    simp only [decodeBody] at h
    split at h
    · rename_i hc
      refine ⟨inst, tail.take (len.toNat - 2), ?_, ?_, h⟩
      · have := congrArg List.length hc
        simp only [List.length_drop, List.length_cons, List.length_nil] at this hl
        rw [← BitVec.toNat_inj, Wire.len, List.length_take, BitVec.toNat_ofNat]
        have := len.isLt
        omega
      · rw [← hc, List.take_append_drop]
    · cases h

/-- Whatever the decoder accepts starts with a frame, and the instruction is read from that frame. -/
theorem decodeInstr_eq_ok {t : Ticks} {bytes rest : List Byte} {i : Instr}
    (h : decodeInstr t bytes = .ok (i, rest)) : ∃ w : Wire, bytes = w.frame ++ rest ∧ instrOfWire t w = .ok i := by
  unfold decodeInstr at h
  split at h
  · rename_i s0 s1 id len tail
    split_ifs at h with hsync hid hmal htrunc
    · simp only [not_or, ne_eq, not_not] at hsync
      obtain ⟨rfl, rfl⟩ := hsync
      have hlength : (tail.take len.toNat).length = len.toNat := List.length_take_of_le (Nat.not_lt.1 htrunc)
      cases hbody : decodeBody t id len (tail.take len.toNat) with
      | error e => simp [hbody, Except.map] at h
      | ok j =>
        rw [hbody] at h
        cases h
        obtain ⟨inst, params, hlen, htake, hinstr⟩ := decodeBody_eq_ok hbody hlength
        refine ⟨⟨id, inst, params⟩, ?_, hinstr⟩
        conv_lhs => rw [← List.take_append_drop len.toNat tail, htake]
        simp [Wire.frame, ← hlen]
  · cases h

/-! ## The parameter layouts (R76) -/

/-- The blocks of equally long data are cut where they were joined. -/
theorem splitBlocks_entryBlocks {len : Nat} :
    ∀ {fuel : Nat} {entries : List Entry}, (∀ e ∈ entries, e.data.length = len) →
      (entryBlocks entries).length ≤ fuel → splitBlocks len fuel (entryBlocks entries) = some entries
  | _, [], _, _ => by simp [entryBlocks, splitBlocks]
  | 0, e :: es, _, hfuel => by simp [entryBlocks] at hfuel
  | fuel + 1, e :: es, h, hfuel => by
    obtain ⟨he, hes⟩ := List.forall_mem_cons.1 h
    have hblocks : entryBlocks (e :: es) = e.id :: (e.data ++ entryBlocks es) := by simp [entryBlocks]
    rw [hblocks, List.length_cons, List.length_append] at hfuel
    rw [hblocks, splitBlocks, if_neg (by rw [List.length_append]; omega), ← he, List.take_left, List.drop_left, he,
      splitBlocks_entryBlocks hes (by omega)]
    rfl

theorem entryBlocks_of_splitBlocks {len : Nat} :
    ∀ {fuel : Nat} {blocks : List Byte} {entries : List Entry}, splitBlocks len fuel blocks = some entries →
      entryBlocks entries = blocks
  | _, [], _, h => by
    simp only [splitBlocks] at h
    cases h
    rfl
  | 0, _ :: _, _, h => by simp [splitBlocks] at h
  | fuel + 1, id :: rest, _, h => by
    simp only [splitBlocks] at h
    split at h
    · cases h
    · obtain ⟨es, hes, rfl⟩ := Option.map_eq_some_iff.1 h
      have hrest := entryBlocks_of_splitBlocks hes
      rw [entryBlocks] at hrest
      simp [entryBlocks, hrest]

/-- A row's layout gives back the operands of a well-formed instruction; the timeout is the listener's. -/
theorem instrOf_of_wf {t : Ticks} {i : Instr} (hwf : i.wf = true) (ht : ∀ u, i.timeout? = some u → u = t) :
    instrOf t i.frameId i.params i.opcode = .ok i := by
  cases i with
  | reboot id => rfl
  | syncWrite addr len entries =>
    obtain ⟨⟨-, hshape⟩, -⟩ := by simpa only [Instr.wf, Bool.and_eq_true] using hwf
    have hsplit : splitBlocks len.toNat (entryBlocks entries).length (entryBlocks entries) = some entries :=
      splitBlocks_entryBlocks (by simpa [sameShape] using hshape) le_rfl
    simp [instrOf, Instr.opcode, Instr.params, Instr.frameId, hsplit]
  | _ =>
    obtain rfl := ht _ rfl
    rfl

/-- What a row's layout accepts is that row's instruction with the given ID and parameter bytes. -/
theorem wire_of_instrOf {t : Ticks} {id : Byte} {params : List Byte} {o : Opcode} {i : Instr}
    (h : instrOf t id params o = .ok i) : i.wire = ⟨id, o.code, params⟩ := by
  cases o with
  | restoreParams | backupParams | reset | positionCalibrate =>
    cases h
    rfl
  | ping | action | reboot =>
    simp only [instrOf] at h
    split at h
    · cases h
      simp_all [Instr.wire, Instr.frameId, Instr.opcode, Instr.params]
    · cases h
  | read | write | regWrite =>
    simp only [instrOf] at h
    split at h
    · cases h
      rfl
    · cases h
  | syncRead =>
    simp only [instrOf] at h
    split at h
    · split at h
      · rename_i hid
        cases h
        rw [hid]
        rfl
      · cases h
    · cases h
  | syncWrite =>
    simp only [instrOf] at h
    split at h
    · split at h
      · split at h
        · rename_i hid _ _ hsplit
          cases h
          rw [hid, ← entryBlocks_of_splitBlocks hsplit]
          rfl
        · cases h
      · cases h
    · cases h

theorem instrOfWire_of_wf {t : Ticks} {i : Instr} (hwf : i.wf = true) (ht : ∀ u, i.timeout? = some u → u = t) :
    instrOfWire t i.wire = .ok i := by
  rw [instrOfWire, Instr.wire, opcodeOf?_code]
  exact instrOf_of_wf hwf ht

theorem wire_of_instrOfWire {t : Ticks} {w : Wire} {i : Instr} (h : instrOfWire t w = .ok i) : i.wire = w := by
  unfold instrOfWire at h
  split at h
  · cases h
  · rename_i o ho
    rw [wire_of_instrOf h, ← opcodeOf?_eq_some_iff.1 ho]

/-! ## Well-formed instructions have frames (R72, R84) -/

theorem params_length_of_wf {i : Instr} (hwf : i.wf = true) : i.params.length ≤ 253 := by
  obtain ⟨hargs, hsize⟩ := (Machine.wf_iff i).1 hwf
  have hframe := frameOf_commandOf i
  obtain ⟨w, hw, hl⟩ := Machine.frame_of_accepted (c := Machine.commandOf i) (by simp [Machine.accepted, *])
  cases hframe.symm.trans hw
  exact hl

theorem frameId_ne_of_wf {i : Instr} (hwf : i.wf = true) : i.frameId ≠ 0xFF := by
  have hid : i.frameId.toNat ≤ 254 := by
    cases i with
    | syncRead | syncWrite => exact (by decide : broadcastId.toNat ≤ 254)
    | _ =>
      simp only [Instr.wf, isUnicast, isFrameId, Bool.and_eq_true, decide_eq_true_eq] at hwf
      simp only [Instr.frameId]
      omega
  intro h
  simp [h] at hid

/-! ## The obligations -/

/-- Settles O1: the frame is whole (`decodeInstr_frame_append`), and its row's layout gives the operands back
(`instrOf_of_wf`). -/
theorem instructionFramesDecodeBack : Obligations.InstructionFramesDecodeBack := by
  unfold Obligations.InstructionFramesDecodeBack
  intro i t rest hwf ht
  rw [encode, decodeInstr_frame_append (w := i.wire) t rest (params_length_of_wf hwf) (frameId_ne_of_wf hwf),
    instrOfWire_of_wf hwf ht]
  rfl

/-- Settles O2: the accepted bytes start with a frame (`decodeInstr_eq_ok`), and what is read from it puts the same into
its own (`wire_of_instrOfWire`). -/
theorem decodedFramesReencode : Obligations.DecodedFramesReencode := by
  unfold Obligations.DecodedFramesReencode
  intro t bytes rest i h
  obtain ⟨w, hbytes, hi⟩ := decodeInstr_eq_ok h
  rw [hbytes, encode, wire_of_instrOfWire hi]

/-- Settles O3: each frame is closed and the decoder runs on it. -/
theorem writtenOutFramesDecode : Obligations.WrittenOutFramesDecode := by
  unfold Obligations.WrittenOutFramesDecode
  exact ⟨rfl, rfl, rfl, rfl, rfl, rfl, rfl, rfl, rfl, rfl, rfl, rfl⟩

end Sys2Proof
end

-- A frame goes out.
section
/-! SUPPORT. The UART takes an accepted instruction's frame byte by byte (40_transport.md R104), and what Sent leaves
after the last one (42_transactions.md R144). -/

namespace Sys2Proof.Machine

/-! ## The bytes of a frame, one by one (R61, R104) -/

@[simp] theorem acceptBytes_zero (p : Params) (s : State) : s.acceptBytes p 0 = s := rfl

theorem acceptBytes_succ (p : Params) (s : State) (k : Nat) :
    s.acceptBytes p (k + 1) = (s.acceptBytes p k).handle p .txAccept := by
  simp [State.acceptBytes, List.replicate_succ']

section
variable (p : Params) {s : State} {c : Command} {frame : List Byte}

/-- While bytes of the frame are left, what was taken is on the line and nothing else has changed. -/
theorem acceptBytes_of_more {k : Nat} (hk : k < frame.length) :
    (sendingState s c frame).acceptBytes p k
      = { sendingState s c frame with txpos := k, txlog := s.txlog ++ frame.take k } := by
  induction k with
  | zero => simp [sendingState]
  | succ k ih =>
    have hb : frame[k]? = some frame[k] := List.getElem?_eq_getElem (by omega)
    rw [acceptBytes_succ, ih (by omega), handle_txAccept_of_more p rfl hb (Nat.ne_of_lt hk)]
    simp only [List.append_assoc, List.take_append_getElem]

/-- The byte that ends the frame is followed by Sent and Settle, with the whole frame on the line. -/
theorem acceptBytes_whole (hne : frame ≠ []) :
    (sendingState s c frame).acceptBytes p frame.length
      = State.settle p.scanLimit
          (State.sent { sendingState s c frame with txpos := frame.length, txlog := s.txlog ++ frame }) := by
  obtain ⟨k, hk⟩ := Nat.exists_eq_succ_of_ne_zero (List.length_eq_zero_iff.not.2 hne)
  have hlt : k < frame.length := by omega
  have hb : frame[k]? = some frame[k] := List.getElem?_eq_getElem hlt
  have htake : frame.take k ++ [frame[k]] = frame := by
    rw [List.take_append_getElem hlt, ← Nat.succ_eq_add_one, ← hk, List.take_length]
  rw [hk, acceptBytes_succ, acceptBytes_of_more p hlt, State.handle, txAccept_of_last hb hk.symm]
  simp only [List.append_assoc, htake]

theorem acceptBytes_whole_txlog (hne : frame ≠ []) :
    ((sendingState s c frame).acceptBytes p frame.length).txlog = s.txlog ++ frame := by
  rw [acceptBytes_whole p hne]
  exact (txlog_of_link (settle_link ..)).trans (txlog_of_link (sent_link _))

/-- A command that awaits nothing ends in a plain OK with its last byte. -/
theorem acceptBytes_whole_of_not_awaits (hne : frame ≠ []) (ha : awaits c = false) :
    (sendingState s c frame).acceptBytes p frame.length
      = { postedState s (codeOnly .ok) with txlog := s.txlog ++ frame } := by
  rw [acceptBytes_whole p hne, sent_of_not_awaits rfl ha, settle_post]
  rfl

/-- A command that awaits a response opens its window with its last byte. -/
theorem acceptBytes_whole_of_awaits (hne : frame ≠ []) (ha : awaits c = true) :
    (sendingState s c frame).acceptBytes p frame.length
      = State.settle p.scanLimit
          { s with cur := some c, seq := .await, txbuf := [], txpos := 0, txlog := s.txlog ++ frame, slot := 0,
                   timer := 0, heard := decide (s.rxfifo ≠ []) } := by
  rw [acceptBytes_whole p hne, ← not_isEmpty_eq_decide]
  obtain ⟨-, hsent⟩ | ⟨hn, -⟩ := sent_cases (c := c)
    (s := { sendingState s c frame with txpos := frame.length, txlog := s.txlog ++ frame }) rfl
  · rw [hsent]
    rfl
  · simp [ha] at hn

end

theorem encode_ne_nil (i : Instr) : encode i ≠ [] := nofun

/-! ## The obligations -/

/-- Settles O35: the state `exec` answers is known (`exec_of_wf`), and from it the frame goes out by induction on the
bytes taken (`acceptBytes_of_more`). -/
theorem issuedFrameGoesOutWhole : Obligations.IssuedFrameGoesOutWhole := by
  unfold Obligations.IssuedFrameGoesOutWhole
  intro p i s hs ho hwf
  refine ⟨_, exec_of_wf hs ho hwf, fun k hk => acceptBytes_of_more p hk,
    acceptBytes_whole_txlog p (encode_ne_nil i), fun hw => ?_⟩
  rw [← awaits_iff_opensWindow, Bool.not_eq_true] at hw
  exact acceptBytes_whole_of_not_awaits p (encode_ne_nil i) hw

end Sys2Proof.Machine
end

-- Which event a step takes.
section
/-! SUPPORT. A step takes the first enabled event of the list (10_state.md R40, log entry 1), and an issued instruction
runs through `exec` (42_transactions.md R141). -/

namespace Sys2Proof.Machine

/-! ## The event taken (R40) -/

theorem takeEnabled_append_cons {seq : Seq} {waiting rest : List Event} {e : Event}
    (hw : ∀ w ∈ waiting, w.enabled seq = false) (he : e.enabled seq = true) :
    takeEnabled seq (waiting ++ e :: rest) = some (e, waiting ++ rest) := by
  induction waiting with
  | nil => exact if_pos he
  | cons x xs ih =>
    obtain ⟨hx, hxs⟩ := List.forall_mem_cons.1 hw
    simp [takeEnabled, hx, ih hxs]

theorem takeEnabled_eq_none {seq : Seq} {es : List Event} (h : ∀ w ∈ es, w.enabled seq = false) :
    takeEnabled seq es = none := by
  induction es with
  | nil => rfl
  | cons x xs ih =>
    obtain ⟨hx, hxs⟩ := List.forall_mem_cons.1 h
    simp [takeEnabled, hx, ih hxs]

theorem stepIn_of_takeEnabled {p : Params} {s : State} {e : Event} {rest : List Event}
    (h : takeEnabled s.seq s.inbox = some (e, rest)) : stepIn p s = perform p e { s with inbox := rest } := by
  simp only [stepIn, h]

/-! ## The instruction a step runs (R141) -/

theorem instrOf?_commandOf (i : Instr) : instrOf? (commandOf i) = some i := by
  cases i <;> rfl

theorem tableCommand_of_decodeTableWord {nbits w : Nat} {i : Instr} (h : decodeTableWord nbits w = some i) :
    tableCommand nbits w = commandOf i := by
  simp only [tableCommand, h]

theorem step_of_issue {s : State} {c : Command} {i : Instr} {rest : List Event} (hs : s.seq = .idle)
    (hi : instrOf? c = some i) (hinbox : s.inbox = .issue c :: rest) : step s = exec i { s with inbox := rest } := by
  have htaken : takeEnabled s.seq s.inbox = some (.issue c, rest) := by
    rw [hinbox]
    exact takeEnabled_append_cons (waiting := []) nofun (issue_enabled.2 hs)
  rw [step, stepIn_of_takeEnabled htaken]
  simp only [perform, hi]

/-! ## The obligations -/

/-- Settles O15: what is taken is the first enabled event (`takeEnabled_append_cons`), and handling it always answers a
state (`perform_eq_handle`). -/
theorem stepHandlesFirstEnabledEvent : Obligations.StepHandlesFirstEnabledEvent := by
  unfold Obligations.StepHandlesFirstEnabledEvent
  refine ⟨fun p s waiting rest e hw he => ?_, fun p s h => ?_, fun seq e => ?_⟩
  · rw [stepIn_of_takeEnabled (s := { s with inbox := waiting ++ e :: rest }) (takeEnabled_append_cons hw he),
      perform_eq_handle]
  · simp only [stepIn, takeEnabled_eq_none h]
  · cases e <;> simp [Event.enabled]

/-- Settles O16: in IDLE the Issue at the head of the list is taken (`step_of_issue`). -/
theorem stepRunsTheIssuedInstruction : Obligations.StepRunsTheIssuedInstruction := by
  unfold Obligations.StepRunsTheIssuedInstruction
  intro s c i rest hs hi
  exact step_of_issue (s := { s with inbox := .issue c :: rest }) hs hi rfl

/-- Settles O17: the word puts the Issue of its instruction's command first in the list of an idle engine. -/
theorem stepRunsTheDecodedWord : Obligations.StepRunsTheDecodedWord := by
  unfold Obligations.StepRunsTheDecodedWord
  intro s nbits w i h
  refine step_of_issue (s := s.withFetchWord nbits w) rfl ?_ rfl
  rw [tableCommand_of_decodeTableWord h, instrOf?_commandOf]

end Sys2Proof.Machine
end

-- Quiet windows, and a whole single-device transaction.
section
/-! SUPPORT. A window in which no byte comes is over at exactly its timeout (40_transport.md R109, 42_transactions.md
R148, 43_group.md R188), and a single-device transaction delivers the addressed device's reply (R144 to R146). -/

namespace Sys2Proof.Machine

/-! ## A quiet window (R109, R111) -/

@[simp] theorem passTicks_zero (p : Params) (s : State) : s.passTicks p 0 = s := rfl

theorem passTicks_succ (p : Params) (s : State) (k : Nat) :
    s.passTicks p (k + 1) = (s.passTicks p k).handle p .tick := by
  simp [State.passTicks, List.replicate_succ']

theorem ofNat_add_one_ticks (k : Nat) : BitVec.ofNat 32 k + 1 = BitVec.ofNat 32 (k + 1) :=
  (BitVec.ofNat_add k 1).symm

section
variable {p : Params} {s : State} {c : Command} {t : Ticks} (hs : s.seq = .await)
  (hinc : decodeResponse p.scanLimit s.rxfifo = .incomplete) (hc : s.cur = some c) (ht : timeoutOf c = some t)
  (hzero : s.timer = 0)
include hs hinc hc ht hzero

/-- Before the timeout the ticks are only counted. -/
theorem passTicks_before_timeout {k : Nat} (hk : k < max 1 t.toNat) :
    s.passTicks p k = { s with timer := BitVec.ofNat 32 k } := by
  induction k with
  | zero =>
    have h0 : BitVec.ofNat 32 0 = s.timer := hzero.symm
    rw [h0]
    rfl
  | succ k ih =>
    have hbefore : (BitVec.ofNat 32 k + 1).toNat < t.toNat := by
      have := t.isLt
      rw [ofNat_add_one_ticks, BitVec.toNat_ofNat]
      omega
    rw [passTicks_succ, ih (by omega),
      handle_tick_before_timeout (s := { s with timer := BitVec.ofNat 32 k }) hs hinc hc ht hbefore,
      ofNat_add_one_ticks]

/-- The tick that reaches the timeout lets the window expire; a timeout of 0 is reached by the first. -/
theorem passTicks_at_timeout :
    ∃ u : Ticks, s.passTicks p (max 1 t.toNat) = State.expire { s with timer := u } := by
  obtain ⟨k, hk⟩ : ∃ k, max 1 t.toNat = k + 1 := Nat.exists_eq_succ_of_ne_zero (by omega)
  have hreached : t.toNat ≤ (BitVec.ofNat 32 k + 1).toNat := by
    have := t.isLt
    rw [ofNat_add_one_ticks, BitVec.toNat_ofNat]
    omega
  refine ⟨BitVec.ofNat 32 k + 1, ?_⟩
  rw [hk, passTicks_succ, passTicks_before_timeout hs hinc hc ht hzero (by omega)]
  exact handle_tick_at_timeout hs hinc hc ht hreached

end

/-! ## A reply comes in (R106, R145, R146) -/

/-- What a device sends as a frame is a reply with the right checksum. -/
theorem frame_eq_reply (id status : Byte) (params : List Byte) :
    Wire.frame ⟨id, status, params⟩
      = SlotReply.bytes id ⟨status, params, checksum id (Wire.len ⟨id, status, params⟩) status params⟩ := rfl

theorem decodeResponse_frame (p : Params) {w : Wire} (hid : w.id.toNat ≤ 254) (hp : w.params.length ≤ 253) :
    decodeResponse p.scanLimit w.frame = .found (.ok w.id w.inst w.params) (w.params.length + 6) := by
  obtain ⟨f, hf, hfound⟩ := decodeRecoversEncodedFrame p w [] hid hp
  rwa [List.append_nil, (encodeFrame_some_iff.1 hf).2] at hfound

theorem decodeResponse_frame_prefix (p : Params) {w : Wire} {l : List Byte} (hid : w.id.toNat ≤ 254)
    (hp : w.params.length ≤ 253) (hl : l <+: w.frame) (hlt : l.length < w.params.length + 6) :
    decodeResponse p.scanLimit l = .incomplete := by
  have hne : w.id ≠ 0xFF := fun h => by simp [h] at hid
  rw [List.prefix_iff_eq_take.1 hl, frame_eq_reply]
  exact decodeResponse_reply_take p hne hp (by rw [reply_length]; exact hlt)

/-- Ticks alone do nothing to an engine at rest. -/
theorem receive_of_no_byte (p : Params) {s : State} (hs : s.seq ≠ .await) :
    ∀ {line : List (Option Byte)}, line.reduceOption = [] → s.receive p line = s
  | [], _ => rfl
  | some b :: line, h => by simp at h
  | none :: line, h => by
    show (s.handle p .tick).receive p line = s
    rw [handle_tick_of_not_await p hs]
    exact receive_of_no_byte p hs (by simpa using h)

theorem receive_append (p : Params) (s : State) (line line' : List (Option Byte)) :
    s.receive p (line ++ line') = (s.receive p line).receive p line' := by
  simp [State.receive]

/-- After the last byte of a line come ticks only. -/
theorem exists_last_byte {bytes : List Byte} {b : Byte} {line : List (Option Byte)}
    (h : line.reduceOption = bytes ++ [b]) :
    ∃ before after, line = before ++ some b :: after ∧ before.reduceOption = bytes ∧ after.reduceOption = [] := by
  induction line using List.reverseRecOn with
  | nil => simp at h
  | append_singleton line o ih =>
    cases o with
    | none =>
      obtain ⟨before, after, rfl, hbefore, hafter⟩ := ih (by simpa [List.reduceOption_append] using h)
      exact ⟨before, after ++ [none], by simp, hbefore, by simpa [List.reduceOption_append] using hafter⟩
    | some a =>
      obtain ⟨hline, rfl⟩ : line.reduceOption = bytes ∧ a = b := by simpa [List.reduceOption_append] using h
      exact ⟨line, [], rfl, hline, rfl⟩

/-- The window of a command with a timeout is open on a live connection. -/
structure State.Listens (s : State) (c : Command) (t : Ticks) : Prop where
  seq : s.seq = .await
  conn : s.conn = .opened
  cur : s.cur = some c
  timeout : timeoutOf c = some t

section
variable {p : Params} {s : State} {c : Command} {t : Ticks} {w : Wire}

/-- As long as nothing can be decoded and the timeout is not reached, bytes join the FIFO and ticks are counted. -/
theorem State.Listens.receive_collects {line : List (Option Byte)} (h : s.Listens c t)
    (hinc : ∀ bytes, bytes <+: s.rxfifo ++ line.reduceOption → decodeResponse p.scanLimit bytes = .incomplete)
    (hroom : (s.rxfifo ++ line.reduceOption).length ≤ p.rxFifoDepth)
    (htime : s.timer.toNat + line.count none < max 1 t.toNat) :
    ∃ timer heard, s.receive p line
      = { s with timer := timer, heard := heard, rxfifo := s.rxfifo ++ line.reduceOption } := by
  induction line generalizing s with
  | nil => exact ⟨s.timer, s.heard, by simp [State.receive]⟩
  | cons o line ih =>
    cases o with
    | none =>
      rw [List.count_cons_self] at htime
      have hnext : (s.timer + 1).toNat = s.timer.toNat + 1 := by
        have := t.isLt
        exact BitVec.toNat_add_of_lt (show s.timer.toNat + 1 < 2 ^ 32 by omega)
      have htick : s.handle p .tick = { s with timer := s.timer + 1 } :=
        handle_tick_before_timeout h.seq (hinc _ (List.prefix_append ..)) h.cur h.timeout (by omega)
      show ∃ timer heard, (s.handle p .tick).receive p line = _
      rw [htick]
      exact ih (s := { s with timer := s.timer + 1 }) { h with } hinc hroom (by
        show (s.timer + 1).toNat + _ < _
        omega)
    | some b =>
      rw [List.reduceOption_cons_of_some, List.append_cons] at hinc hroom ⊢
      rw [List.count_cons_of_ne (by simp)] at htime
      have hfits : s.rxfifo.length < p.rxFifoDepth := by
        simp only [List.length_append, List.length_singleton] at hroom
        omega
      have hbyte : s.handle p (.rxByte b) = { s with heard := true, rxfifo := s.rxfifo ++ [b] } := by
        rw [State.handle, rxByte_of_room b h.conn hfits, heard_or_of_await h.seq]
        exact settle_of_incomplete (hinc _ (List.prefix_append ..))
      show ∃ timer heard, (s.handle p (.rxByte b)).receive p line = _
      rw [hbyte]
      exact ih (s := { s with heard := true, rxfifo := s.rxfifo ++ [b] }) { h with } hinc hroom htime

/-- The last byte of a frame ends a single-device command. -/
theorem State.Listens.handle_last_byte {bytes : List Byte} {b : Byte} {r : FrameResult} (h : s.Listens c t)
    (hsingle : ∀ addr len ids u, c ≠ .syncRead addr len ids u) (hroom : s.rxfifo.length < p.rxFifoDepth)
    (hbytes : s.rxfifo ++ [b] = bytes) (hfound : decodeResponse p.scanLimit bytes = .found r bytes.length) :
    s.handle p (.rxByte b) = State.post { s with rxfifo := [] } (singleResult c s.slot r) := by
  subst hbytes
  rw [State.handle, rxByte_of_room b h.conn hroom, heard_or_of_await h.seq,
    settle_of_single (s := { s with heard := true, rxfifo := s.rxfifo ++ [b] }) h.seq h.cur hsingle hfound,
    List.drop_length]
  rfl

/-- A frame comes in before the timeout, with ticks before, between and after its bytes: the command ends in what the
frame resolves to, with the FIFO empty. -/
theorem State.Listens.receive_frame {line : List (Option Byte)} (h : s.Listens c t)
    (hsingle : ∀ addr len ids u, c ≠ .syncRead addr len ids u) (hfifo : s.rxfifo = []) (hzero : s.timer = 0)
    (hid : w.id.toNat ≤ 254) (hp : w.params.length ≤ 253) (hline : line.reduceOption = w.frame)
    (htime : line.count none < max 1 t.toNat) :
    s.receive p line = s.post (singleResult c s.slot (.ok w.id w.inst w.params)) := by
  have hdepth := p.rxFifoDepth_ge
  obtain ⟨bytes, chk, hframe⟩ : ∃ bytes chk, w.frame = bytes ++ [chk] := ⟨_, _, rfl⟩
  have hlength : bytes.length + 1 = w.params.length + 6 := by rw [← frame_length, hframe, List.length_append]; rfl
  obtain ⟨before, after, rfl, hbefore, hafter⟩ := exists_last_byte (hline.trans hframe)
  have hcollected : s.rxfifo ++ before.reduceOption = bytes := by rw [hfifo, hbefore, List.nil_append]
  obtain ⟨timer, heard, hcollect⟩ := h.receive_collects (p := p) (line := before)
    (by
      rw [hcollected]
      intro l hl
      have hlt := hl.length_le
      exact decodeResponse_frame_prefix p hid hp (hframe ▸ hl.trans (List.prefix_append ..)) (by omega))
    (by rw [hcollected]; omega)
    (by
      have hsplit := List.count_append (a := none) (l₁ := before) (l₂ := some chk :: after)
      have h0 : s.timer.toNat = 0 := congrArg BitVec.toNat hzero
      omega)
  rw [hcollected] at hcollect
  have hlast := State.Listens.handle_last_byte (p := p) (b := chk)
    (s := { s with timer := timer, heard := heard, rxfifo := bytes }) { h with } hsingle
    (show bytes.length < _ by omega) hframe.symm
    (frame_length w ▸ decodeResponse_frame p hid hp)
  have hend : s.receive p (before ++ some chk :: after)
      = ((s.receive p before).handle p (.rxByte chk)).receive p after := receive_append ..
  rw [hend, hcollect, hlast, receive_of_no_byte p (by simp) hafter, ← hfifo]
  rfl

end

/-! ## The window an instruction opens -/

theorem not_syncRead_of_awaitedResponse {c : Command} {r : Byte × Option Nat} (h : awaitedResponse c = some r) :
    ∀ addr len ids t, c ≠ .syncRead addr len ids t := by
  rintro addr len ids t rfl
  cases h

/-- The device a well-formed instruction is addressed to has a frame ID (R72). -/
theorem awaited_id_le_of_wf {i : Instr} {id : Byte} {count : Option Nat} (hwf : i.wf = true)
    (h : awaitedResponse (commandOf i) = some (id, count)) : id.toNat ≤ 254 := by
  cases i with
  | reboot | syncRead | syncWrite => cases h
  | _ =>
    cases h
    simp only [Instr.wf, isUnicast, isFrameId, Bool.and_eq_true, decide_eq_true_eq] at hwf
    omega

/-! ## The obligations -/

/-- Settles O42: nothing can be decoded in an open window (R38 (c)), so its ticks are only counted up to the timeout
(`passTicks_before_timeout`), and the last lets it expire. -/
theorem quietWindowExpiresAtItsTimeout : Obligations.QuietWindowExpiresAtItsTimeout := by
  unfold Obligations.QuietWindowExpiresAtItsTimeout
  intro p s c t hinv hs hc hsync ht hzero
  have hinc := hinv.window_incomplete hs
  rw [← timeoutOf_eq_timeoutOperand] at ht
  refine ⟨fun k hk => passTicks_before_timeout hs hinc hc ht hzero hk, ?_⟩
  obtain ⟨u, hexpire⟩ := passTicks_at_timeout hs hinc hc ht hzero
  rw [hexpire]
  cases c with
  | ping id t => exact expire_of_ping hc
  | _ => exact expire_of_other hc nofun hsync

/-- Settles O43: as O42, and the expired slot goes on to the next device or completes the batch
(`expire_of_syncRead`). -/
theorem quietSlotExpiresAtItsTimeout : Obligations.QuietSlotExpiresAtItsTimeout := by
  unfold Obligations.QuietSlotExpiresAtItsTimeout
  intro p s addr len id ids t hinv hs hc hid hzero entry
  have hinc := hinv.window_incomplete hs
  obtain ⟨u, hexpire⟩ := passTicks_at_timeout hs hinc hc rfl hzero
  rw [hexpire, expire_of_syncRead (s := { s with timer := u }) hc hid]
  exact ⟨fun k hk => passTicks_before_timeout hs hinc hc rfl hzero hk,
    fun hmore => nextSlot_of_more (Nat.ne_of_lt hmore) _, fun hlast => nextSlot_of_last hlast _⟩

/-- Settles O47: the frame goes out and opens the window (`acceptBytes_whole_of_awaits`), the reply comes in whole
before the timeout (`State.Listens.receive_frame`), and it is the awaited one (`singleResult_of_awaited`). -/
theorem addressedReplyIsDelivered : Obligations.AddressedReplyIsDelivered := by
  unfold Obligations.AddressedReplyIsDelivered
  intro p i s id count t status params line _ hs ho hfifo hlost hwf hw hreply ht hcount hp hline htime
  refine ⟨_, exec_of_wf hs ho hwf, ?_⟩
  rw [← timeoutOf_eq_timeoutOperand] at ht
  have hopen := acceptBytes_whole_of_awaits p (s := s) (encode_ne_nil i) (awaits_iff_opensWindow.2 hw)
  have hinc : decodeResponse p.scanLimit s.rxfifo = .incomplete := by rw [hfifo, decodeResponse_nil]
  rw [settle_of_incomplete (by exact hinc)] at hopen
  dsimp only
  rw [hopen]
  have hlistens : State.Listens
      { s with cur := some (commandOf i), seq := .await, txbuf := [], txpos := 0, txlog := s.txlog ++ encode i,
               slot := 0, timer := 0, heard := decide (s.rxfifo ≠ []) } (commandOf i) t := ⟨rfl, ho, rfl, ht⟩
  rw [hlistens.receive_frame (w := ⟨id, status, params⟩) (not_syncRead_of_awaitedResponse hreply) hfifo rfl
    (awaited_id_le_of_wf hwf hreply) hp hline htime, singleResult_of_awaited _ hw hreply hcount]
  refine ⟨?_, hlost⟩
  cases commandOf i <;> rfl

end Sys2Proof.Machine
end
